-- ==== Sys2Proof/Word.lean ====
section
/-! DEFINITION. The word types of CRC64-CORE (00_scope.md R9, R10; 30_encoding.md R44, R49). All are bit vectors:
the spec shifts, slices and XORs every one of them, and all values are unsigned. -/

namespace Sys2Proof

/-- `u64`: bits 63 down to 0 (R9). The width of the accumulator, of a table entry and of the polynomial (R5). -/
abbrev Word := BitVec 64

/-- `u8`: bits 7 down to 0 (R9). -/
abbrev Byte := BitVec 8

/-- The 67-bit header of a command, format C (R44). -/
abbrev Header := BitVec 67

/-- The 66-bit word of a micro-operation, format U (R49). -/
abbrev MicroWord := BitVec 66

end Sys2Proof
end

