-- ==== Sys2Proof/Config.lean ====
section
/-! DEFINITION. What is fixed for the machine: the hardwired constants of 10_state.md R20 (values of 00_scope.md R6), and
the one free value of the spec, the contents of the tables before publication (R25, U2). -/

namespace Sys2Proof

/-- The generator polynomial, most-significant-bit first, its degree-64 term implicit (R6, R61). Read by BUILD. -/
def Config.poly : Word := 0xad93d23594c935a9#64

/-- Reflected input (R6). Fixed into the bit order of table 0 (R7, R20); read by nothing at run time. -/
def Config.refIn : Bool := true

/-- The recorded initial XOR value (R6). No operation of the block applies it (R7, 90_conflicts.md C1). -/
def Config.init : Word := 0xffffffffffffffff#64

/-- Reflected output (R6). Fixed into the reversal of table 0 (R7, R20); read by nothing at run time. -/
def Config.refOut : Bool := true

/-- The final XOR value (R6). No operation of the block applies it (R7). -/
def Config.xorOut : Word := 0#64

/-- The declared block size, in bytes (R5, R20). Read by the command BLOCK_SIZE. -/
def Config.blockSize : Nat := 1

/-- The declared output size, in bytes (R5, R20). Read by the command SIZE. -/
def Config.size : Nat := 8

/-- FREE VALUE (R25, R108, 93_implementation_defined.md U2; DESIGN CHOICE, unsafe, log entry 5): what LUT address `addr`
holds after the hardware reset that begins lifetime `n`, before BUILD. The spec says any value. It has no body here, so no
proof can lean on one. -/
opaque Config.tblAtReset (n addr : Nat) : Word

end Sys2Proof
end

