-- ==== Sys2Proof/Syntax.lean ====
section
/-! DEFINITION. The operations of CRC64-CORE: one constructor per row of spec/opcode_table.json (30_encoding.md R43). -/

namespace Sys2Proof

/-- The eight commands, issued by the host, and the three micro-operations, issued by the block's own sequencers (R43).
A bit field that the spec says is ignored (`arg64` of six commands, `opnd` of BUILD) is no operand (R44, R49). -/
inductive Instr where
  /-- RESET (R87). -/
  | reset
  /-- SEED (R88). -/
  | seed (value : Word)
  /-- WRITE (R89). -/
  | write (data : List Byte)
  /-- SUM64 (R90). -/
  | sum64
  /-- SUM (R91). `pre` is the caller's prefix. -/
  | sum (pre : List Byte)
  /-- BLOCK_SIZE (R92). -/
  | blockSize
  /-- SIZE (R93). -/
  | size
  /-- CHECKSUM (R94). -/
  | checksum (value : Word) (data : List Byte)
  /-- BUILD (R60). -/
  | build
  /-- FOLD1 (R75). -/
  | fold1 (v : Byte)
  /-- FOLD8 (R76). -/
  | fold8 (word : Word)
  deriving DecidableEq, Repr

end Sys2Proof
end

