-- ==== Sys2Proof/Decode.lean ====
section
/-! DEFINITION. The two encodings of 30_encoding.md: format C, a 67-bit command header followed by a byte payload (R44, R45,
R47), and format U, a 66-bit micro-operation word (R49); then the encoder. The encodings are the spec's own choice
(decision D3). -/

namespace Sys2Proof

/-! ## Fields -/

/-- `hdr[2:0]`, the command opcode (R44). -/
def headerOp (hdr : Header) : BitVec 3 := hdr.extractLsb' 0 3

/-- `hdr[66:3]`, the 64-bit operand, taken as is (R44, R48). -/
def headerArg (hdr : Header) : Word := hdr.extractLsb' 3 64

/-- The header with opcode `op` and operand `arg` (R44). -/
def mkHeader (op : BitVec 3) (arg : Word) : Header := arg ++ op

/-- `u[1:0]`, the micro-operation code (R49). -/
def microUop (u : MicroWord) : BitVec 2 := u.extractLsb' 0 2

/-- `u[65:2]`, the operand (R49). -/
def microOpnd (u : MicroWord) : Word := u.extractLsb' 2 64

/-- The micro-operation word with code `uop` and operand `opnd` (R49). -/
def mkMicro (uop : BitVec 2) (opnd : Word) : MicroWord := opnd ++ uop

/-! ## Decoding -/

/-- Why a 66-bit word is no micro-operation (R49, R50; DEDUCED, safe, log entry 13). Neither kind of word is ever generated. -/
inductive DecodeReject where
  /-- `uop = 11`, "never generated". -/
  | uopNeverGenerated
  /-- FOLD1 with `opnd[63:8]` not 0. -/
  | fold1OperandHigh
  deriving DecidableEq, Repr

/-- The command of a header and its payload (R47). Total: all eight values of `op` are commands (R50). The header alone
determines the command, and a payload that the command does not carry is not looked at (R45; DEDUCED, unsafe, log entry 9). -/
def decodeCommand (hdr : Header) (payload : List Byte) : Instr :=
  match (headerOp hdr).toNat with
  | 0 => .reset
  | 1 => .seed (headerArg hdr)
  | 2 => .write payload
  | 3 => .sum64
  | 4 => .sum payload
  | 5 => .blockSize
  | 6 => .size
  | _ => .checksum (headerArg hdr) payload   -- `op` has 3 bits: this is 7

/-- The micro-operation of a 66-bit word (R49). -/
def decodeMicro (u : MicroWord) : Except DecodeReject Instr :=
  match (microUop u).toNat with
  | 0 => .ok .build
  | 1 => if (microOpnd u).extractLsb' 8 56 = 0#56 then .ok (.fold1 ((microOpnd u).extractLsb' 0 8))
         else .error .fold1OperandHigh
  | 2 => .ok (.fold8 (microOpnd u))
  | _ => .error .uopNeverGenerated   -- `uop` has 2 bits: this is 3

/-! ## Encoding -/

/-- An operation as its issuer presents it: a command with its payload (R44, R45), or a micro-operation (R49). -/
inductive Encoding where
  | command (hdr : Header) (payload : List Byte)
  | micro (u : MicroWord)
  deriving DecidableEq, Repr

/-- The encoding of an operation (R47, R49). The spec leaves an ignored field open; here it is 0, as 95_test_vectors.md V26 and
P5 show it (DESIGN CHOICE, safe, log entry 20). -/
def encode : Instr → Encoding
  | .reset => .command (mkHeader 0#3 0#64) []
  | .seed value => .command (mkHeader 1#3 value) []
  | .write data => .command (mkHeader 2#3 0#64) data
  | .sum64 => .command (mkHeader 3#3 0#64) []
  | .sum pre => .command (mkHeader 4#3 0#64) pre
  | .blockSize => .command (mkHeader 5#3 0#64) []
  | .size => .command (mkHeader 6#3 0#64) []
  | .checksum value data => .command (mkHeader 7#3 value) data
  | .build => .micro (mkMicro 0#2 0#64)
  | .fold1 v => .micro (mkMicro 1#2 (v.setWidth 64))
  | .fold8 word => .micro (mkMicro 2#2 word)

/-- Decoding of either format. -/
def decode : Encoding → Except DecodeReject Instr
  | .command hdr payload => .ok (decodeCommand hdr payload)
  | .micro u => decodeMicro u

/-- The word of BUILD, which reset generates (R49, R108). -/
def buildWord : MicroWord := mkMicro 0#2 0#64

/-- Whether a word is one of BUILD; `opnd` is ignored (R49). -/
def isBuildWord (u : MicroWord) : Bool := microUop u == 0#2

/-! ## The opcode table's numbering -/

/-- Whether a row of `nbits` bits is read as format U. The two formats are told apart by where they stand (the command
interface, or the block's own sequencers), not by a bit. Exactly 66 bits, the width of a micro-operation word, is format U;
every other width, shorter or longer, is a command header, which is all that a program is made of (DESIGN CHOICE, safe, log
entry 11). -/
def isMicroWidth (nbits : Nat) : Bool := nbits == 66

/-- The operation that the decoder reads from the row word `w`; a payload of the row is empty. -/
def decodeTableWord (nbits w : Nat) : Option Instr :=
  if isMicroWidth nbits then (decodeMicro (BitVec.ofNat 66 w)).toOption
  else some (decodeCommand (BitVec.ofNat 67 w) [])

end Sys2Proof
end

