-- ==== Sys2Proof/Machine/State.lean ====
section
/-! DEFINITION. The state of CRC64-CORE as plain data (10_state.md), the outcomes a step can have, and the state right after
hardware reset (R25, R108). -/

namespace Sys2Proof.Machine

/-- The table set `tbl`: 2048 entries of 64 bits (R15), `tbl[k][b]` at address `256*k + b` (R31). A location is one whole
entry, and there is no byte address inside it (R31), so the LUT space is a vector of entries (DESIGN CHOICE, safe, log entry
17). -/
abbrev TableSet := Vector Word 2048

/-- What one command delivers to its issuer (R46). -/
inductive Response where
  /-- A bare completion: RESET, SEED. -/
  | done
  /-- A natural number: WRITE, BLOCK_SIZE, SIZE. -/
  | count (n : Nat)
  /-- 64 bits: SUM64, CHECKSUM. -/
  | word (v : Word)
  /-- A byte sequence: SUM. -/
  | bytes (bs : List Byte)
  deriving DecidableEq, Repr

/-- What the host may do (R113). -/
inductive HostEvent where
  /-- Issue a command: its header and its payload (R44, R45). -/
  | command (hdr : Header) (payload : List Byte)
  /-- Reset the block between two commands (R108; DESIGN CHOICE, unsafe, log entry 14). -/
  | hardReset
  deriving DecidableEq, Repr

/-- The state. The first three fields are the spec's architectural state (R12, R25). `uop` is the micro-operation word that a
sequencer has generated and that is not yet performed (R49). The last three are the model's own: the two ends of the host
interface (R113, R117; DESIGN CHOICE, unsafe, log entries 2 and 3) and the counter that indexes the free value of `tbl`
(DESIGN CHOICE, unsafe, log entry 5). -/
structure State where
  /-- The accumulator (R13). -/
  acc : Word
  /-- Publication: the table set has been built in this lifetime (R17). -/
  tblValid : Bool
  /-- The table set (R15). -/
  tbl : TableSet
  /-- The micro-operation word generated and not yet performed (R49; DESIGN CHOICE, unsafe, log entry 6). -/
  uop : Option MicroWord
  /-- What the host has issued and the block has not yet taken, in issue order. -/
  host : List HostEvent
  /-- The responses produced so far, in issue order. -/
  responses : List Response
  /-- How many hardware resets the run has seen: a lifetime is the interval from one reset to the next (R16). -/
  lifetime : Nat
  deriving DecidableEq, Repr

/-- There is no fault: "No operation of the block raises an exception, fault, trap or error of any kind, under any input"
(R95). -/
inductive Fault where
  deriving DecidableEq, Repr

/-- Why a step has no meaning. -/
inductive Refusal where
  /-- An instruction without a meaning yet. No arm of `exec` answers it: every instruction has its meaning. Safe. -/
  | notModelled (mnemonic : String)
  /-- `step`, when `uop` holds a word that no sequencer generates ("never generated", R49, R50). It cannot be injected from
  outside, so no run from reset comes here. Safe: the machine stops where the spec has no step. -/
  | neverGenerated (why : DecodeReject)
  deriving DecidableEq, Repr

/-- The tables after the hardware reset that begins lifetime `n`, before BUILD: any value (R25, U2; DESIGN CHOICE, unsafe,
log entry 5). -/
def unspecifiedTables (n : Nat) : TableSet := ⟨((List.range 2048).map (Config.tblAtReset n)).toArray, by simp⟩

/-- The machine right after hardware reset, before BUILD (R25, R108): nothing issued, nothing answered, and the one BUILD
that reset generates (R49) still to be performed. -/
def State.reset : State where
  acc := 0#64
  tblValid := false
  tbl := unspecifiedTables 0
  uop := some buildWord
  host := []
  responses := []
  lifetime := 0

end Sys2Proof.Machine
end

