-- ==== Sys2Proof/Machine/Ops.lean ====
section
/-! DEFINITION. The named operations over the state: reading and writing the LUT space (20_memory.md R31; 00_scope.md R11),
writing the accumulator, responding (R11, R46), and the effect of a hardware reset (70_reset_and_hazards.md R108). There is
no exception to take and none to return from: the block has no trap mechanism (60_exceptions.md R99, R100). -/

namespace Sys2Proof.Machine

/-! ## The LUT space -/

/-- The linear address of `(k, b)`: `addr[10:8] = k`, `addr[7:0] = b`, so `256*k + b` (R31). -/
def lutAddr (k : BitVec 3) (b : Byte) : BitVec 11 := k ++ b

/-- `LutRead(k, b)`, also written `T[k][b]` (R11): one whole entry (R36). -/
def lutRead (t : TableSet) (k : BitVec 3) (b : Byte) : Word := t[(lutAddr k b).toNat]'(lutAddr k b).isLt

/-- `LutWrite(k, b, v)` (R11): one whole entry. Only BUILD performs it. -/
def lutWrite (t : TableSet) (k : BitVec 3) (b : Byte) (v : Word) : TableSet :=
  t.set (lutAddr k b).toNat v (lutAddr k b).isLt

/-! ## The accumulator and the response -/

/-- `acc <- v` (R11). -/
def State.setAcc (s : State) (v : Word) : State := { s with acc := v }

/-- `respond r` (R11): deliver the one response of a command, after those of earlier commands (R46, R117). -/
def State.respond (s : State) (r : Response) : State := { s with responses := s.responses ++ [r] }

/-! ## Publication and reset -/

/-- The tables `t` become readable all at once, in the step that sets `tbl_valid` (R66). -/
def State.publish (s : State) (t : TableSet) : State := { s with tblValid := true, tbl := t }

/-- A hardware reset (R108): a new lifetime begins, `acc` is 0, the tables are unspecified and unpublished, and exactly one
BUILD is generated (R49). What the host has still to issue and what it has already been answered are the host's
(DESIGN CHOICE, unsafe, log entries 2, 3 and 14). -/
def State.hardReset (s : State) : State :=
  { s with
    acc := 0#64
    tblValid := false
    tbl := unspecifiedTables (s.lifetime + 1)
    uop := some buildWord
    lifetime := s.lifetime + 1 }

end Sys2Proof.Machine
end

