-- ==== Sys2Proof/Machine/Flags.lean ====
section
/-! DEFINITION. The block has no status flag, condition code, carry or predicate (10_state.md R19). Its only one-bit state is
`tbl_valid`, which no command reads as data and which only gates what may proceed (R17; 60_exceptions.md R101). The two
gates stand here. An operation that may not proceed is held: the machine stays as it is (DEDUCED, unsafe, log entries 7 and
8). -/

namespace Sys2Proof.Machine

/-- The gate of everything but BUILD: it proceeds with `f` once the tables are published, and is held until then (R101;
R39(b) and R110 for the folds). -/
def whenPublished (s : State) (f : State → State) : Host.Outcome State Fault Refusal :=
  if s.tblValid then .next (f s) else .next s

/-- The gate of BUILD, whose precondition is `tbl_valid = 0` (R60). Once it has run it has no further step until the next
reset (R67). -/
def whenUnpublished (s : State) (f : State → State) : Host.Outcome State Fault Refusal :=
  if s.tblValid then .next s else .next (f s)

end Sys2Proof.Machine
end

