-- ==== Sys2Proof/Machine/Operands.lean ====
section
/-! DEFINITION. The byte and bit forms of an operand: `byte_j`, `rev64`, `le64`, `le_bytes8` (00_scope.md R9, R10) and the
assembly of a FOLD8 word (41_fold_datapath.md R77). Byte order is little-endian everywhere (20_memory.md R34). -/

namespace Sys2Proof.Machine

/-- `byte_j(x) = x[8j+7:8j]` (R9). -/
def byteOf (j : Nat) (x : Word) : Byte := x.extractLsb' (8 * j) 8

/-- `rev64(x)`: bit `i` of the result is bit `63 - i` of `x` (R10). -/
def rev64 (x : Word) : Word := x.reverse

/-- `le64(d0, ..., d7) = d0 + d1*2^8 + ... + d7*2^56` (R10, R77): the first byte is `byte_0`. -/
def le64 (d0 d1 d2 d3 d4 d5 d6 d7 : Byte) : Word := d7 ++ d6 ++ d5 ++ d4 ++ d3 ++ d2 ++ d1 ++ d0

/-- `le_bytes8(x) = [byte_0(x), ..., byte_7(x)]` (R10). -/
def leBytes8 (x : Word) : List Byte :=
  [byteOf 0 x, byteOf 1 x, byteOf 2 x, byteOf 3 x, byteOf 4 x, byteOf 5 x, byteOf 6 x, byteOf 7 x]

end Sys2Proof.Machine
end

