-- ==== Sys2Proof/Machine/Folds.lean ====
section
/-! DEFINITION. The Checksum Engine's datapath (41_fold_datapath.md): the one-byte and eight-byte folds, the sequencer that
turns a byte sequence into folds, and the meanings of FOLD1 and FOLD8. -/

namespace Sys2Proof.Machine

/-- FOLD1 on accumulator `a` (R75). Both uses of `a` are the value before the step. -/
def fold1 (t : TableSet) (a : Word) (v : Byte) : Word := lutRead t 0#3 (byteOf 0 a ^^^ v) ^^^ a >>> 8

/-- FOLD8 on accumulator `a` (R76): lane `j` reads `T[7-j][byte_j(x)]`, and the eight lanes are XORed (R78). -/
def fold8 (t : TableSet) (a word : Word) : Word :=
  let x := a ^^^ word
  lutRead t 7#3 (byteOf 0 x) ^^^ lutRead t 6#3 (byteOf 1 x) ^^^ lutRead t 5#3 (byteOf 2 x) ^^^ lutRead t 4#3 (byteOf 3 x)
    ^^^ lutRead t 3#3 (byteOf 4 x) ^^^ lutRead t 2#3 (byteOf 5 x) ^^^ lutRead t 1#3 (byteOf 6 x) ^^^ lutRead t 0#3 (byteOf 7 x)

/-- `update(a, data)` (R79): FOLD8 while at least 8 bytes remain, then FOLD1 for each byte left. The list is what the cursor
has not reached yet. -/
def update (t : TableSet) : Word → List Byte → Word
  | a, d0 :: d1 :: d2 :: d3 :: d4 :: d5 :: d6 :: d7 :: rest =>
    update t (fold8 t a (le64 d0 d1 d2 d3 d4 d5 d6 d7)) rest
  | a, v :: rest => update t (fold1 t a v) rest
  | a, [] => a

/-- The micro-operations that the `update` sequencer generates for `data`, in order (R49, R79). -/
def microOps : List Byte → List Instr
  | d0 :: d1 :: d2 :: d3 :: d4 :: d5 :: d6 :: d7 :: rest =>
    .fold8 (le64 d0 d1 d2 d3 d4 d5 d6 d7) :: microOps rest
  | v :: rest => .fold1 v :: microOps rest
  | [] => []

/-- FOLD1 (R75): writes `acc` only; a micro-operation has no response (R43; DEDUCED, unsafe, log entry 19). -/
def execFold1 (v : Byte) (s : State) : Host.Outcome State Fault Refusal :=
  whenPublished s fun s => s.setAcc (fold1 s.tbl s.acc v)

/-- FOLD8 (R76): writes `acc` only. -/
def execFold8 (word : Word) (s : State) : Host.Outcome State Fault Refusal :=
  whenPublished s fun s => s.setAcc (fold8 s.tbl s.acc word)

end Sys2Proof.Machine
end

