-- ==== Sys2Proof/Machine/Commands.lean ====
section
/-! DEFINITION. The meanings of the eight commands (42_accumulator_commands.md). Each is atomic (R39), is accepted only while
the tables are published (R101), raises nothing (R95) and produces exactly one response (R46). None writes `tbl`. -/

namespace Sys2Proof.Machine

/-- RESET (R87): only the accumulator; not the hardware reset. It writes 0, not `INIT` (R7). -/
def execReset (s : State) : Host.Outcome State Fault Refusal :=
  whenPublished s fun s => (s.setAcc 0#64).respond .done

/-- SEED (R88): a load, not an XOR. -/
def execSeed (value : Word) (s : State) : Host.Outcome State Fault Refusal :=
  whenPublished s fun s => (s.setAcc value).respond .done

/-- WRITE (R89): the response is always the full length. -/
def execWrite (data : List Byte) (s : State) : Host.Outcome State Fault Refusal :=
  whenPublished s fun s => (s.setAcc (update s.tbl s.acc data)).respond (.count data.length)

/-- SUM64 (R90): no final XOR, no reversal, nothing finalised. -/
def execSum64 (s : State) : Host.Outcome State Fault Refusal :=
  whenPublished s fun s => s.respond (.word s.acc)

/-- SUM (R91): the caller's bytes, then the accumulator in little-endian order. -/
def execSum (pre : List Byte) (s : State) : Host.Outcome State Fault Refusal :=
  whenPublished s fun s => s.respond (.bytes (pre ++ leBytes8 s.acc))

/-- BLOCK_SIZE (R92): the constant 1. -/
def execBlockSize (s : State) : Host.Outcome State Fault Refusal :=
  whenPublished s fun s => s.respond (.count Config.blockSize)

/-- SIZE (R93): the constant 8. -/
def execSize (s : State) : Host.Outcome State Fault Refusal :=
  whenPublished s fun s => s.respond (.count Config.size)

/-- CHECKSUM (R94): on a private temporary; `acc` is neither read nor written. -/
def execChecksum (value : Word) (data : List Byte) (s : State) : Host.Outcome State Fault Refusal :=
  whenPublished s fun s => s.respond (.word (update s.tbl value data))

end Sys2Proof.Machine
end

