-- ==== Sys2Proof/Machine/Tables.lean ====
section
/-! DEFINITION. The Table Builder (40_table_generation.md): the function that gives each entry, the constant table set
`TABLES`, and the meaning of BUILD. -/

namespace Sys2Proof.Machine

/-! ## The entries -/

/-- `crc_bit_step` (R61): the bit comes from the unshifted `v`, and the polynomial is XORed into the shifted one. -/
def crcBitStep (v : Word) (cbit : Bool) : Word :=
  if v.getLsbD 63 ^^ cbit then v <<< 1 ^^^ Config.poly else v <<< 1

/-- The working register `v` after the eight bits of `c`, least-significant bit first (R62). -/
def t0Register (c : Byte) : Word :=
  [0, 1, 2, 3, 4, 5, 6, 7].foldl (fun v i => crcBitStep v (c.getLsbD i)) 0#64

/-- `t0_entry` (R62): the reversed register. -/
def t0Entry (c : Byte) : Word := rev64 (t0Register c)

/-- `TABLES[k][b]` (R62, R64). -/
def tableEntry : Nat → Byte → Word
  | 0, b => t0Entry b
  | k + 1, b => t0Entry (byteOf 0 (tableEntry k b)) ^^^ tableEntry k b >>> 8

/-- `TABLES` (R15), laid out by linear address (R31). Proofs read it one entry at a time, by `lutRead_tables`. -/
@[irreducible]
def tables : TableSet :=
  ⟨((List.range 2048).map fun addr => tableEntry (addr / 256) (BitVec.ofNat 8 addr)).toArray, by simp⟩

/-! ## The permitted alternative for table 0 (R63) -/

/-- One step of the right-shifting register with the reversed polynomial (R63). -/
def reflectedStep (v : Word) : Word :=
  if v.getLsbD 0 then v >>> 1 ^^^ rev64 Config.poly else v >>> 1

/-- The alternative algorithm for an entry of table 0 (R63): eight such steps from the byte. R62 stays the normative one. -/
def t0EntryReflected (c : Byte) : Word :=
  [0, 1, 2, 3, 4, 5, 6, 7].foldl (fun v _ => reflectedStep v) (c.setWidth 64)

/-! ## BUILD -/

/-- BUILD (R60): every entry of `tbl` becomes its entry of `TABLES` and the set is published, in one atomic step (R66,
R108). It touches nothing else. The write loops of R60's pseudocode, below, leave the same table set. -/
def execBuild (s : State) : Host.Outcome State Fault Refusal :=
  whenUnpublished s fun s => s.publish tables

/-! ## BUILD's pseudocode, write by write

How BUILD fills the tables inside its one step is not observable (R66, U9; DESIGN CHOICE, safe, log entry 18), so the
machine does not run these loops. They are the pseudocode of R60 as it stands. -/

/-- The byte values 0 to 255, in order. -/
def allBytes : List Byte := (List.range 256).map (BitVec.ofNat 8)

/-- `for c = 0 .. 255: LutWrite(0, c, t0_entry(c))` (R60). -/
def writeTable0 (t : TableSet) : TableSet := allBytes.foldl (fun t c => lutWrite t 0#3 c (t0Entry c)) t

/-- The value written for `T[k][b]`, read from the tables written so far (R64). -/
def derivedEntry (t : TableSet) (k : BitVec 3) (b : Byte) : Word :=
  lutRead t 0#3 (byteOf 0 (lutRead t (k - 1#3) b)) ^^^ lutRead t (k - 1#3) b >>> 8

/-- `for b = 0 .. 255: LutWrite(k, b, ...)` (R60). -/
def writeDerived (t : TableSet) (k : BitVec 3) : TableSet :=
  allBytes.foldl (fun t b => lutWrite t k b (derivedEntry t k b)) t

/-- All the writes of BUILD, in the order of its pseudocode (R60). Proofs replace it by its value, `buildWrites_eq`. -/
@[irreducible]
def buildWrites (t : TableSet) : TableSet :=
  [1#3, 2#3, 3#3, 4#3, 5#3, 6#3, 7#3].foldl writeDerived (writeTable0 t)

end Sys2Proof.Machine
end

