-- ==== Sys2Proof/Machine/Dispatch.lean ====
section
/-! DEFINITION. Which meaning each operation has: one arm per constructor. -/

namespace Sys2Proof.Machine

def exec (i : Instr) (s : State) : Host.Outcome State Fault Refusal :=
  match i with
  -- the accumulator commands
  | .reset => Sys2Proof.Machine.execReset s
  | .seed value => Sys2Proof.Machine.execSeed value s
  | .write data => Sys2Proof.Machine.execWrite data s
  | .sum64 => Sys2Proof.Machine.execSum64 s
  | .sum pre => Sys2Proof.Machine.execSum pre s
  | .blockSize => Sys2Proof.Machine.execBlockSize s
  | .size => Sys2Proof.Machine.execSize s
  | .checksum value data => Sys2Proof.Machine.execChecksum value data s
  -- the micro-operations
  | .build => Sys2Proof.Machine.execBuild s
  | .fold1 v => Sys2Proof.Machine.execFold1 v s
  | .fold8 word => Sys2Proof.Machine.execFold8 word s

end Sys2Proof.Machine
end

