-- ==== Sys2Proof/Machine/Fetch.lean ====
section
/-! DEFINITION. What the machine does next. The block fetches no instructions (10_state.md R18): the Table Builder acts while
the tables are unpublished (R98, R101), then the sequencers' micro-operation if one is waiting (R49), then the host's next
event in issue order (R39, R113). -/

namespace Sys2Proof.Machine

/-- What comes next: an operation, on the state in which its issuer has handed it over; a hardware reset; nothing, because
the run has ended (R117); or a word that no sequencer generates (R50). -/
inductive Next where
  | run (i : Instr) (s : State)
  | hardReset (s : State)
  | idle (s : State)
  | never (why : DecodeReject)
  deriving DecidableEq, Repr

/-- BUILD comes first while `tbl_valid = 0`, whatever else is waiting, and everything else is held (R98, R101). If the word
waiting is the BUILD that reset generated it is used up; a FOLD's word stays (R110). -/
def nextUnpublished (s : State) : Next := .run .build { s with uop := s.uop.filter fun u => !isBuildWord u }

/-- A waiting micro-operation word is used up and performed (R49). -/
def nextMicro (u : MicroWord) (s : State) : Next :=
  match decodeMicro u with
  | .ok i => .run i { s with uop := none }
  | .error why => .never why

/-- The host's next event is taken (R39, R113). With none left the run has ended and the machine stays as it is (R117;
DEDUCED, unsafe, log entry 4). -/
def nextHost (s : State) : Next :=
  match s.host with
  | .command hdr payload :: rest => .run (decodeCommand hdr payload) { s with host := rest }
  | .hardReset :: rest => .hardReset { s with host := rest }
  | [] => .idle s

/-- What the machine does next. -/
def fetch (s : State) : Next :=
  if s.tblValid then
    match s.uop with
    | some u => nextMicro u s
    | none => nextHost s
  else nextUnpublished s

/-- `s` after BUILD, if it has not happened yet: what any operation other than BUILD waits for (R101). -/
def State.published (s : State) : State :=
  if s.tblValid then s else s.publish tables

/-- `s` with the row word `w` placed where the next step takes it (DESIGN CHOICE, unsafe, log entry 12). A micro-operation
goes where its sequencer puts it; BUILD is due only while the tables are unpublished, and a FOLD only after. A command is
issued by the host ahead of what it has still to issue, with no micro-operation in the way. -/
def State.place (s : State) (nbits w : Nat) : State :=
  if isMicroWidth nbits then
    let u : MicroWord := BitVec.ofNat 66 w
    if isBuildWord u then { s with tblValid := false, uop := some u } else { s.published with uop := some u }
  else { s.published with uop := none, host := .command (BitVec.ofNat 67 w) [] :: s.host }

end Sys2Proof.Machine
end

