-- ==== Sys2Proof/Machine/Step.lean ====
section
/-! DEFINITION. One step of the machine, at transaction level: one command, one BUILD or one hardware reset is one atomic
step (92_eei_decisions.md D1; 20_memory.md R39). -/

namespace Sys2Proof.Machine

/-- One step (R39, R101, R108, R117). -/
def step (s : State) : Host.Outcome State Fault Refusal :=
  match fetch s with
  | .run i t => exec i t
  | .hardReset t => .next t.hardReset
  | .idle t => .next t
  | .never why => .refused (.neverGenerated why)

/-- `s` with the operation that the row word `w` encodes stored where the next step takes it (DESIGN CHOICE, unsafe, log
entry 12). -/
def State.withFetchWord (s : State) (nbits w : Nat) : State := s.place nbits w

end Sys2Proof.Machine
end

