-- ==== Sys2Proof/WellFormed.lean ====
section
/-! DEFINITION. Which operation may come from whom. Every operand value the types admit is legal (R45, R48, R50, R88,
R89), so the only check on an operation is its issuer: the host issues commands, the block's sequencers issue
micro-operations, and neither can issue the other's (30_encoding.md R43, R49, R50). -/

namespace Sys2Proof

/-- Who issues an operation (R43). -/
inductive Issuer where
  /-- Whatever issues commands to the block. -/
  | host
  /-- Reset, and the `update` sequencer inside WRITE and CHECKSUM. -/
  | sequencer
  deriving DecidableEq, Repr

/-- The one issuer of each operation (R43: "eight commands, issued by the host, and three micro-operations, issued only by
the block's own sequencers"). -/
def Instr.issuer : Instr → Issuer
  | .reset => .host
  | .seed _ => .host
  | .write _ => .host
  | .sum64 => .host
  | .sum _ => .host
  | .blockSize => .host
  | .size => .host
  | .checksum _ _ => .host
  | .build => .sequencer
  | .fold1 _ => .sequencer
  | .fold8 _ => .sequencer

/-- An operation is well formed from `o` when `o` is the one that may issue it. -/
def Instr.wellFormedFrom (o : Issuer) (i : Instr) : Bool := i.issuer == o

end Sys2Proof
end

