-- ==== Sys2Proof/Safety.lean ====
section
/-! DEFINITION. What the statements call a good state, a sequence of operations, an answer of the right kind, and the host's
duty. -/

namespace Sys2Proof

open Machine

/-! ## Good states -/

/-- The tables hold their one value whenever they can be read: while `tbl_valid = 1`, `tbl[k][b] = TABLES[k][b]` (10_state.md
R24). -/
def Safety.TablesPublished (s : State) : Prop := s.tblValid = true → s.tbl = tables

/-- A waiting micro-operation word is one that a sequencer can generate (30_encoding.md R49, R50). -/
def Safety.MicroGenerated (s : State) : Prop := ∀ u, s.uop = some u → ∃ i, decodeMicro u = .ok i

/-- The invariant of the machine. -/
structure Safety.Inv (s : State) : Prop where
  tables : Safety.TablesPublished s
  micro : Safety.MicroGenerated s

/-- Where a lifetime stands with its BUILD (40_table_generation.md R67): either it is still to come, its word waiting, or it has
happened and nothing waits. That the word waits in a field, with `opnd` 0, is the model's (DESIGN CHOICE, unsafe, log entry
6). The predicate counts no BUILDs. -/
def Safety.OneBuild (s : State) : Prop :=
  (s.tblValid = false ∧ s.uop = some buildWord) ∨ (s.tblValid = true ∧ s.uop = none)

/-- The shape of the launch state (70_reset_and_hazards.md R116): the tables are built and no operation is in progress. -/
def Safety.Ready (s : State) : Prop := s.tblValid = true ∧ s.tbl = tables ∧ s.uop = none

/-! ## Sequences of operations -/

/-- The operations of a list one after another (20_memory.md R39). -/
def Safety.execAll : List Instr → State → Host.Outcome State Fault Refusal
  | [], s => .next s
  | i :: is, s =>
    match exec i s with
    | .next t => Safety.execAll is t
    | .fault r => .fault r
    | .refused r => .refused r

/-! ## Answers and duties -/

/-- `r` is an answer of the kind that command `i` owes (30_encoding.md R46). A micro-operation owes none. -/
def Safety.Answers : Instr → Response → Prop
  | .reset, r => r = .done
  | .seed _, r => r = .done
  | .write data, r => r = .count data.length
  | .sum64, r => ∃ v, r = .word v
  | .sum pre, r => ∃ bs, r = .bytes bs ∧ bs.length = pre.length + 8
  | .blockSize, r => r = .count 1
  | .size, r => r = .count 8
  | .checksum _ _, r => ∃ v, r = .word v
  | .build, _ => False
  | .fold1 _, _ => False
  | .fold8 _, _ => False

/-- The host's duty on a payload: only WRITE, SUM and CHECKSUM carry one (30_encoding.md R45). -/
def Safety.payloadDuty (hdr : Header) (payload : List Byte) : Bool :=
  payload.isEmpty || headerOp hdr == 2#3 || headerOp hdr == 4#3 || headerOp hdr == 7#3

end Sys2Proof
end

