-- ==== Sys2Proof/Certificates/Slice0/Obligations.lean ====
section
/-! DEFINITION. The statements for the provers. Each docstring names the rules of spec/ that it formalises. -/

section

open Sys2Proof Sys2Proof.Machine

/-! ## What a step does -/

/-- While the tables are unpublished, a step is BUILD, whatever waits or has been issued; the BUILD word that reset generated
is used up, a FOLD's word stays (60_exceptions.md section 3; DESIGN CHOICE, unsafe, log entry 6 for the word). -/
def Obligations.StepBuildsFirst : Prop :=
  ∀ s : State, s.tblValid = false →
    step s = exec .build { s with uop := s.uop.filter fun u => !isBuildWord u }

/-- Once the tables are published, a step takes the waiting micro-operation word and runs the operation it decodes to
(30_encoding.md section 4; DESIGN CHOICE, unsafe, log entry 6). A word that no sequencer generates is refused by name
(DEDUCED, safe, log entry 13). -/
def Obligations.StepRunsWaitingMicro : Prop :=
  ∀ (s : State) (u : MicroWord), s.tblValid = true → s.uop = some u →
    (∀ i, decodeMicro u = .ok i → step s = exec i { s with uop := none }) ∧
    (∀ why, decodeMicro u = .error why → step s = .refused (.neverGenerated why))

/-- With the tables published and no micro-operation waiting, a step takes the host's next command and runs the operation its
header decodes to (20_memory.md section 6; DESIGN CHOICE, unsafe, log entry 2). -/
def Obligations.StepRunsIssuedCommand : Prop :=
  ∀ (s : State) (hdr : Header) (payload : List Byte) (rest : List HostEvent),
    s.tblValid = true → s.uop = none → s.host = .command hdr payload :: rest →
    step s = exec (decodeCommand hdr payload) { s with host := rest }

/-- With nothing issued and nothing waiting the run has ended, and a step changes nothing (the model's choice, DEDUCED,
unsafe, log entry 4). -/
def Obligations.StepIdlesAtTheEnd : Prop :=
  ∀ s : State, s.tblValid = true → s.uop = none → s.host = [] → step s = .next s

/-! ## Encodings -/

/-- Words of 95_test_vectors.md V26 and P5 decode to the operations they stand for. -/
def Obligations.SampleWordsDecode : Prop :=
  decodeCommand 0x7fffffffffffffff8#67 [] = .reset ∧
  decodeCommand 0x21ac9e2ee6d290f81#67 [] = .seed 0x43593c5dcda521f0#64 ∧
  decodeCommand 0x00000000000000002#67 [0x35#8, 0x36#8] = .write [0x35#8, 0x36#8] ∧
  decodeCommand 0x00000000000000004#67 [0xaa#8] = .sum [0xaa#8] ∧
  decodeCommand 0x089119a22ab33bc47#67 [] = .checksum 0x1122334455667788#64 [] ∧
  decodeMicro 0x00000000000000000#66 = .ok .build ∧
  decodeMicro 0x0e0dcd8d4d0ccc8c6#66 = .ok (.fold8 0x3837363534333231#64) ∧
  decodeMicro 0x000000000000000e5#66 = .ok (.fold1 0x39#8)

/-- Decoding the encoding of an operation gives that operation, for every operation and every operand
(30_encoding.md sections 2 and 4). -/
def Obligations.DecodeEncodeAgree : Prop := ∀ i : Instr, decode (encode i) = .ok i

/-- The command opcode map (R47), by match and mask over the 67-bit header: `mask = 0x7` and `match = op` for every command,
`arg64` the seed of SEED and CHECKSUM, and the payload of WRITE, SUM and CHECKSUM; the other five have none. -/
def Obligations.CommandOpcodeMap : Prop :=
  ∀ (hdr : Header) (payload : List Byte),
    (hdr &&& 7#67 = 0#67 → decodeCommand hdr [] = .reset) ∧
    (hdr &&& 7#67 = 1#67 → decodeCommand hdr [] = .seed (hdr.extractLsb' 3 64)) ∧
    (hdr &&& 7#67 = 2#67 → decodeCommand hdr payload = .write payload) ∧
    (hdr &&& 7#67 = 3#67 → decodeCommand hdr [] = .sum64) ∧
    (hdr &&& 7#67 = 4#67 → decodeCommand hdr payload = .sum payload) ∧
    (hdr &&& 7#67 = 5#67 → decodeCommand hdr [] = .blockSize) ∧
    (hdr &&& 7#67 = 6#67 → decodeCommand hdr [] = .size) ∧
    (hdr &&& 7#67 = 7#67 → decodeCommand hdr payload = .checksum (hdr.extractLsb' 3 64) payload)

/-- The micro-operation map (30_encoding.md section 4), by match and mask over the 66-bit word. The last two clauses are the
model's reading of "never generated" (DEDUCED, safe, log entry 13). -/
def Obligations.MicroOpcodeMap : Prop :=
  ∀ u : MicroWord,
    (u &&& 3#66 = 0#66 → decodeMicro u = .ok .build) ∧
    (u &&& 3#66 = 1#66 → u.extractLsb' 10 56 = 0#56 → decodeMicro u = .ok (.fold1 (u.extractLsb' 2 8))) ∧
    (u &&& 3#66 = 2#66 → decodeMicro u = .ok (.fold8 (u.extractLsb' 2 64))) ∧
    (u &&& 3#66 = 1#66 → u.extractLsb' 10 56 ≠ 0#56 → decodeMicro u = .error .fold1OperandHigh) ∧
    (u &&& 3#66 = 3#66 → decodeMicro u = .error .uopNeverGenerated)

/-- Encoding what a word decodes to gives the word back, but for the ignored fields: `arg64` of the six commands that do not
use it, `opnd` of BUILD (30_encoding.md sections 2, 3 and 4). That they come back 0 is the model's choice: the spec says only
that they are ignored, and 95_test_vectors.md shows them as 0 in V26 and P5 (DESIGN CHOICE, safe, log entry 20; for BUILD's
`opnd` in the field `uop` at reset, log entry 6). For a command the payload is one it carries. -/
def Obligations.DecodedWordReencodes : Prop :=
  (∀ (hdr : Header) (payload : List Byte), Safety.payloadDuty hdr payload = true →
    encode (decodeCommand hdr payload) =
      .command (mkHeader (headerOp hdr) (if headerOp hdr = 1#3 ∨ headerOp hdr = 7#3 then headerArg hdr else 0#64)) payload) ∧
  (∀ (u : MicroWord) (i : Instr), decodeMicro u = .ok i →
    encode i = .micro (if microUop u = 0#2 then buildWord else u))

/-- The host's words decode to commands only and the sequencers' words to micro-operations only (30_encoding.md section 1). -/
def Obligations.EachInterfaceIssuesItsOwn : Prop :=
  (∀ hdr payload, (decodeCommand hdr payload).wellFormedFrom .host = true) ∧
  (∀ u i, decodeMicro u = .ok i → i.wellFormedFrom .sequencer = true)

/-! ## The LUT space and the table generator -/

/-- The 2048 locations are addressed by `256*k + b`, distinct pairs are distinct locations, a read gives what was written
last to its location, and a write leaves every other location alone (20_memory.md section 1). -/
def Obligations.LutReadsWhatWasWritten : Prop :=
  (∀ k b, (lutAddr k b).toNat = 256 * k.toNat + b.toNat) ∧
  (∀ k b k' b', lutAddr k b = lutAddr k' b' ↔ k = k' ∧ b = b') ∧
  (∀ (t : TableSet) (k : BitVec 3) (b : Byte) (v : Word) (k' : BitVec 3) (b' : Byte),
    lutRead (lutWrite t k b v) k' b' = if k = k' ∧ b = b' then v else lutRead t k' b')

/-- One bit step (R61), bit by bit: the top bit of the unshifted register, XORed with the input bit, decides whether `POLY`,
0xad93d23594c935a9, is XORed into the register shifted left by 1. -/
def Obligations.BitStepShiftsAndXors : Prop :=
  ∀ (v : Word) (cbit : Bool),
    (crcBitStep v cbit).getLsbD 0 = ((v.getLsbD 63 ^^ cbit) && (0xad93d23594c935a9#64).getLsbD 0) ∧
    ∀ i, i < 63 → (crcBitStep v cbit).getLsbD (i + 1) =
      (v.getLsbD i ^^ ((v.getLsbD 63 ^^ cbit) && (0xad93d23594c935a9#64).getLsbD (i + 1)))

/-- An entry of table 0 (R62): eight bit steps from 0, bit 0 of the byte first, then the order of all 64 bits reversed; with
the rule's two corner cases and its worked example, step by step. -/
def Obligations.TableZeroEntries : Prop :=
  (∀ c : Byte, lutRead tables 0#3 c =
    rev64 (crcBitStep (crcBitStep (crcBitStep (crcBitStep (crcBitStep (crcBitStep (crcBitStep (crcBitStep 0#64
      (c.getLsbD 0)) (c.getLsbD 1)) (c.getLsbD 2)) (c.getLsbD 3)) (c.getLsbD 4)) (c.getLsbD 5)) (c.getLsbD 6)) (c.getLsbD 7))) ∧
  (∀ (x : Word) (i : Nat), i < 64 → (rev64 x).getLsbD i = x.getLsbD (63 - i)) ∧
  lutRead tables 0#3 0x00#8 = 0#64 ∧
  lutRead tables 0#3 0x80#8 = 0x95ac9329ac4bc9b5#64 ∧
  crcBitStep 0#64 true = 0xad93d23594c935a9#64 ∧
  crcBitStep 0xad93d23594c935a9#64 false = 0xf6b4765ebd5b5efb#64 ∧
  [false, false, false, false, false, false].foldl crcBitStep 0xf6b4765ebd5b5efb#64 = 0x9e91ac0c130e1b5e#64 ∧
  rev64 0x9e91ac0c130e1b5e#64 = 0x7ad870c830358979#64 ∧
  lutRead tables 0#3 0x01#8 = 0x7ad870c830358979#64

/-- Tables 1 to 7 (R64): the recurrence, that it is FOLD1 of the previous table's entry with the byte 0x00, entry 0 of every
table, and the worked example. -/
def Obligations.DerivedTablesFollowRecurrence : Prop :=
  (∀ (k : BitVec 3) (b : Byte), k ≠ 0#3 →
    lutRead tables k b =
      lutRead tables 0#3 ((lutRead tables (k - 1#3) b).extractLsb' 0 8) ^^^ lutRead tables (k - 1#3) b >>> 8 ∧
    lutRead tables k b = fold1 tables (lutRead tables (k - 1#3) b) 0x00#8) ∧
  (∀ k : BitVec 3, lutRead tables k 0x00#8 = 0#64) ∧
  lutRead tables 1#3 0x01#8 = 0x89e99ffd73bddf69#64

/-- The meaning of the tables (R65): `TABLES[k][b]` is `update(0, [b, 0x00 (k times)])`, the accumulator obtained from 0 by
FOLD1 of `b` followed by `k` FOLD1s of 0x00. -/
def Obligations.TablesAreZeroExtendedFolds : Prop :=
  ∀ (k : BitVec 3) (b : Byte),
    lutRead tables k b = update tables 0#64 (b :: List.replicate k.toNat 0x00#8) ∧
    lutRead tables k b = (List.replicate k.toNat 0x00#8).foldl (fold1 tables) (fold1 tables 0#64 b)

/-- The right-shifting algorithm with the reversed polynomial gives table 0, for every byte (40_table_generation.md section
2: "both are equivalent"). -/
def Obligations.ReflectedAlgorithmGivesTableZero : Prop :=
  rev64 Config.poly = 0x95ac9329ac4bc9b5#64 ∧ ∀ c : Byte, t0EntryReflected c = lutRead tables 0#3 c

/-- BUILD (40_table_generation.md section 1): from any state with `tbl_valid = 0` it answers the next state in which `tbl` holds what the writes of the
section's pseudocode leave, whatever it held before, and `tbl_valid` is 1; nothing else is changed. That table set is `TABLES`:
every entry of table 0 is `t0_entry`, and every entry of tables 1 to 7 follows the recurrence. Its word has `uop = 00` with
`opnd` ignored; reset generates it, and once the tables are published and nothing waits no step performs it, whatever the
host issues; and the worked examples hold. That the word which reset generates waits in the field `uop`, with `opnd` 0, is
the model's choice (DESIGN CHOICE, unsafe, log entry 6). -/
def Obligations.BuildWritesTablesAndPublishes : Prop :=
  (∀ s : State, s.tblValid = false →
    exec .build s = .next { s with tblValid := true, tbl := buildWrites s.tbl } ∧
    exec .build s = .next { s with tblValid := true, tbl := tables } ∧
    ∀ t, exec .build s = .next t →
      (∀ c, lutRead t.tbl 0#3 c = t0Entry c) ∧
      (∀ (k : BitVec 3) (b : Byte), k ≠ 0#3 → lutRead t.tbl k b =
        lutRead t.tbl 0#3 ((lutRead t.tbl (k - 1#3) b).extractLsb' 0 8) ^^^ lutRead t.tbl (k - 1#3) b >>> 8)) ∧
  (∀ opnd : Word, decodeMicro (mkMicro 0#2 opnd) = .ok .build) ∧
  (∀ s : State, s.hardReset.uop = some buildWord ∧ s.hardReset.tblValid = false) ∧
  (∀ (s t : State) (i : Instr), s.tblValid = true → s.uop = none → fetch s = .run i t → i ≠ .build) ∧
  lutRead tables 0#3 0x01#8 = 0x7ad870c830358979#64 ∧ lutRead tables 7#3 0x01#8 = 0x381d0015c96f4444#64

/-- With the tables published BUILD's precondition is false, and it does nothing (the model's reading of "it has no further
step", DEDUCED, unsafe, log entry 8). -/
def Obligations.SecondBuildDoesNothing : Prop := ∀ s : State, s.tblValid = true → exec .build s = .next s

/-! ## The folds -/

/-- FOLD1 (R75): the new accumulator, from the accumulator before the step and one entry of table 0, and nothing else
changed; its encoding; the corner cases and the worked example on the built tables. -/
def Obligations.FoldOneResult : Prop :=
  (∀ (v : Byte) (s : State), s.tblValid = true →
    exec (.fold1 v) s = .next { s with acc := lutRead s.tbl 0#3 (s.acc.extractLsb' 0 8 ^^^ v) ^^^ s.acc >>> 8 }) ∧
  (∀ v : Byte, decodeMicro (mkMicro 1#2 (v.setWidth 64)) = .ok (.fold1 v)) ∧
  (∀ s : State, s.tblValid = true → s.tbl = tables →
    exec (.fold1 (s.acc.extractLsb' 0 8)) s = .next { s with acc := s.acc >>> 8 } ∧
    (s.acc = 0#64 → exec (.fold1 0x00#8) s = .next s) ∧
    (s.acc = 0#64 → exec (.fold1 0x31#8) s = .next { s with acc := 0xfdc17184a9f739fa#64 }))

/-- FOLD8 (R76): the new accumulator, the XOR of one entry from each of the eight tables, and nothing else changed; its
encoding; the corner cases and the worked example on the built tables. -/
def Obligations.FoldEightResult : Prop :=
  (∀ (word : Word) (s : State), s.tblValid = true →
    exec (.fold8 word) s = .next { s with
      acc := lutRead s.tbl 7#3 ((s.acc ^^^ word).extractLsb' 0 8) ^^^ lutRead s.tbl 6#3 ((s.acc ^^^ word).extractLsb' 8 8)
      ^^^ lutRead s.tbl 5#3 ((s.acc ^^^ word).extractLsb' 16 8) ^^^ lutRead s.tbl 4#3 ((s.acc ^^^ word).extractLsb' 24 8)
      ^^^ lutRead s.tbl 3#3 ((s.acc ^^^ word).extractLsb' 32 8) ^^^ lutRead s.tbl 2#3 ((s.acc ^^^ word).extractLsb' 40 8)
      ^^^ lutRead s.tbl 1#3 ((s.acc ^^^ word).extractLsb' 48 8) ^^^ lutRead s.tbl 0#3 ((s.acc ^^^ word).extractLsb' 56 8) }) ∧
  (∀ word : Word, decodeMicro (mkMicro 2#2 word) = .ok (.fold8 word)) ∧
  (∀ s : State, s.tblValid = true → s.tbl = tables → exec (.fold8 s.acc) s = .next { s with acc := 0#64 }) ∧
  (∀ (j : Nat) (b : Byte), j < 8 → fold8 tables 0#64 (b.setWidth 64 <<< (8 * j)) = lutRead tables (7#3 - BitVec.ofNat 3 j) b) ∧
  fold8 tables 0xffffffffffffffff#64 0#64 = 0xf13c1dc270a84d1a#64 ∧
  fold8 tables 0#64 0x3837363534333231#64 = 0x49ec20b315e86dc2#64

/-- A FOLD is held while the tables are unpublished: it changes nothing (the model's reading, DEDUCED, unsafe, log entry 7). -/
def Obligations.FoldsAreHeldUntilPublication : Prop :=
  ∀ s : State, s.tblValid = false →
    (∀ v, exec (.fold1 v) s = .next s) ∧ (∀ word, exec (.fold8 word) s = .next s)

/-- Word assembly (R77): byte `j` of the word is byte `j` of the window. -/
def Obligations.WordAssemblyIsLittleEndian : Prop :=
  ∀ (d0 d1 d2 d3 d4 d5 d6 d7 : Byte),
    (le64 d0 d1 d2 d3 d4 d5 d6 d7).extractLsb' 0 8 = d0 ∧ (le64 d0 d1 d2 d3 d4 d5 d6 d7).extractLsb' 8 8 = d1 ∧
    (le64 d0 d1 d2 d3 d4 d5 d6 d7).extractLsb' 16 8 = d2 ∧ (le64 d0 d1 d2 d3 d4 d5 d6 d7).extractLsb' 24 8 = d3 ∧
    (le64 d0 d1 d2 d3 d4 d5 d6 d7).extractLsb' 32 8 = d4 ∧ (le64 d0 d1 d2 d3 d4 d5 d6 d7).extractLsb' 40 8 = d5 ∧
    (le64 d0 d1 d2 d3 d4 d5 d6 d7).extractLsb' 48 8 = d6 ∧ (le64 d0 d1 d2 d3 d4 d5 d6 d7).extractLsb' 56 8 = d7

/-! ## The update sequencer and its laws -/

/-- The `update` sequencer (R79): it issues `floor(n/8)` FOLD8s, each of the little-endian word of its own eight bytes, then
one FOLD1 for each byte left, in order; and performing these micro-operations one after another, on any state whose tables
are published, leaves exactly `update` in the accumulator and changes nothing else. -/
def Obligations.UpdateIsItsMicroOperations : Prop :=
  (∀ data : List Byte, ∃ words : List Word, words.length = data.length / 8 ∧
    microOps data = words.map .fold8 ++ (data.drop (8 * (data.length / 8))).map .fold1 ∧
    ∀ n word, words[n]? = some word → ∀ j, j < 8 → data[8 * n + j]? = some (word.extractLsb' (8 * j) 8)) ∧
  (∀ (s : State) (data : List Byte), s.tblValid = true →
    Safety.execAll (microOps data) s = .next { s with acc := update s.tbl s.acc data })

/-- Empty input (R80): folding no bytes changes nothing, and CHECKSUM of no bytes answers its seed. -/
def Obligations.EmptyInputChangesNothing : Prop :=
  (∀ (t : TableSet) (a : Word), update t a [] = a) ∧
  (∀ (value : Word) (s : State), s.tblValid = true →
    exec (.checksum value []) s = .next { s with responses := s.responses ++ [.word value] })

/-- Incremental consistency (R82): folding `A` and then `B` is folding `A ++ B`, for every accumulator and every split. -/
def Obligations.IncrementalConsistency : Prop :=
  ∀ (a : Word) (A B : List Byte), update tables (update tables a A) B = update tables a (A ++ B)

/-- Byte-at-a-time equivalence (R83): FOLD8 of eight bytes is FOLD1 of each in turn; `update` is the left fold of FOLD1; and
however a sequence is cut into WRITEs (one byte at a time, eight at a time, in one call), the accumulator afterwards is
`update` of the whole, with each WRITE answering its own length and nothing else changed. -/
def Obligations.SliceByEightEqualsByteAtATime : Prop :=
  (∀ (a : Word) (d0 d1 d2 d3 d4 d5 d6 d7 : Byte),
    fold8 tables a (le64 d0 d1 d2 d3 d4 d5 d6 d7) = [d0, d1, d2, d3, d4, d5, d6, d7].foldl (fold1 tables) a) ∧
  (∀ (a : Word) (data : List Byte), update tables a data = data.foldl (fold1 tables) a) ∧
  (∀ (s : State) (pieces : List (List Byte)), s.tblValid = true → s.tbl = tables →
    Safety.execAll (pieces.map .write) s = .next { s with
      acc := update tables s.acc pieces.flatten,
      responses := s.responses ++ pieces.map fun p => .count p.length })

/-- The known answer (R84): one FOLD8 and one FOLD1. -/
def Obligations.KnownAnswer : Prop :=
  fold8 tables 0#64 0x3837363534333231#64 = 0x49ec20b315e86dc2#64 ∧
  fold1 tables 0x49ec20b315e86dc2#64 0x39#8 = 0xe9c6d914c4b8d9ca#64 ∧
  ∀ s : State, s.tblValid = true → s.tbl = tables →
    exec (.checksum 0#64 [0x31#8, 0x32#8, 0x33#8, 0x34#8, 0x35#8, 0x36#8, 0x37#8, 0x38#8, 0x39#8]) s =
      .next { s with responses := s.responses ++ [.word 0xe9c6d914c4b8d9ca#64] }

/-! ## The accumulator commands -/

/-- RESET (R87): encoding, `acc <- 0` with a bare completion and nothing else changed, and that SUM64 then answers 0
whatever was written before. -/
def Obligations.ResetCommandResult : Prop :=
  (∀ arg : Word, decodeCommand (mkHeader 0#3 arg) [] = .reset) ∧
  ∀ s : State, s.tblValid = true →
    exec .reset s = .next { s with acc := 0#64, responses := s.responses ++ [.done] } ∧
    Safety.execAll [.reset, .sum64] s =
      .next { s with acc := 0#64, responses := s.responses ++ [.done, .word 0#64] }

/-- SEED (R88): encoding, `acc <- seed` for every 64-bit seed with a bare completion and nothing else changed, that `SEED 0`
is RESET, and that a seed equal to an earlier result continues that computation. -/
def Obligations.SeedCommandResult : Prop :=
  (∀ value : Word, decodeCommand (mkHeader 1#3 value) [] = .seed value) ∧
  (∀ (value : Word) (s : State), s.tblValid = true →
    exec (.seed value) s = .next { s with acc := value, responses := s.responses ++ [.done] }) ∧
  (∀ s : State, exec (.seed 0#64) s = exec .reset s) ∧
  (∀ (value : Word) (A B : List Byte) (s : State), s.tblValid = true → s.tbl = tables →
    ∃ t, Safety.execAll [.seed (update tables value A), .write B] s = .next t ∧ t.acc = update tables value (A ++ B))

/-- WRITE (R89): encoding, `acc <- update(acc, data)` with the full length as the response and nothing else changed, the
empty WRITE, the composition of two WRITEs, how many FOLD8s and then FOLD1s a length takes, that zero bytes leave a zero
accumulator zero, and the worked example. -/
def Obligations.WriteCommandResult : Prop :=
  (∀ (arg : Word) (data : List Byte), decodeCommand (mkHeader 2#3 arg) data = .write data) ∧
  (∀ (data : List Byte) (s : State), s.tblValid = true →
    exec (.write data) s =
      .next { s with acc := update s.tbl s.acc data, responses := s.responses ++ [.count data.length] }) ∧
  (∀ s : State, s.tblValid = true →
    exec (.write []) s = .next { s with responses := s.responses ++ [.count 0] }) ∧
  (∀ (A B : List Byte) (s : State), s.tblValid = true → s.tbl = tables →
    Safety.execAll [.write A, .write B] s = .next { s with
      acc := update tables s.acc (A ++ B), responses := s.responses ++ [.count A.length, .count B.length] }) ∧
  (∀ data : List Byte, ∃ (words : List Word) (bytes : List Byte), microOps data = words.map .fold8 ++ bytes.map .fold1 ∧
    words.length = data.length / 8 ∧ bytes.length = data.length % 8) ∧
  (∀ n : Nat, update tables 0#64 (List.replicate n 0x00#8) = 0#64) ∧
  (∀ s : State, s.tblValid = true → s.tbl = tables → s.acc = 0#64 →
    exec (.write [0x31#8, 0x32#8, 0x33#8, 0x34#8, 0x35#8, 0x36#8, 0x37#8, 0x38#8, 0x39#8]) s =
      .next { s with acc := 0xe9c6d914c4b8d9ca#64, responses := s.responses ++ [.count 9] })

/-- SUM64 (R90): encoding, the accumulator itself as the response with nothing else changed, 0 after RESET, and that a
WRITE may follow as if it had not happened. -/
def Obligations.Sum64CommandResult : Prop :=
  (∀ arg : Word, decodeCommand (mkHeader 3#3 arg) [] = .sum64) ∧
  (∀ s : State, s.tblValid = true → exec .sum64 s = .next { s with responses := s.responses ++ [.word s.acc] }) ∧
  (∀ s : State, s.tblValid = true → Safety.execAll [.reset, .sum64] s =
    .next { s with acc := 0#64, responses := s.responses ++ [.done, .word 0#64] }) ∧
  ∀ (s : State) (data : List Byte), s.tblValid = true → Safety.execAll [.sum64, .write data] s = .next { s with
    acc := update s.tbl s.acc data, responses := s.responses ++ [.word s.acc, .count data.length] }

/-- SUM (R91): encoding, the prefix followed by the 8 bytes of the accumulator, `byte_0` first, with nothing else changed
(so that a WRITE may follow as if it had not happened), and the serialisation round trip `le64(le_bytes8(x)) = x`. -/
def Obligations.SumCommandResult : Prop :=
  (∀ (arg : Word) (pre : List Byte), decodeCommand (mkHeader 4#3 arg) pre = .sum pre) ∧
  (∀ (pre : List Byte) (s : State), s.tblValid = true →
    exec (.sum pre) s = .next { s with responses := s.responses ++ [.bytes (pre ++
      [s.acc.extractLsb' 0 8, s.acc.extractLsb' 8 8, s.acc.extractLsb' 16 8, s.acc.extractLsb' 24 8,
       s.acc.extractLsb' 32 8, s.acc.extractLsb' 40 8, s.acc.extractLsb' 48 8, s.acc.extractLsb' 56 8])] }) ∧
  (∀ (pre data : List Byte) (s : State), s.tblValid = true → ∃ t, Safety.execAll [.sum pre, .write data] s = .next t ∧
    t.acc = update s.tbl s.acc data) ∧
  (∀ x : Word, le64 (x.extractLsb' 0 8) (x.extractLsb' 8 8) (x.extractLsb' 16 8) (x.extractLsb' 24 8)
    (x.extractLsb' 32 8) (x.extractLsb' 40 8) (x.extractLsb' 48 8) (x.extractLsb' 56 8) = x)

/-- BLOCK_SIZE (R92): encoding, and the count 1 as the response with nothing else changed. -/
def Obligations.BlockSizeCommandResult : Prop :=
  (∀ arg : Word, decodeCommand (mkHeader 5#3 arg) [] = .blockSize) ∧
  ∀ s : State, s.tblValid = true → exec .blockSize s = .next { s with responses := s.responses ++ [.count 1] }

/-- SIZE (R93): encoding, the count 8 as the response with nothing else changed, and that 8 is how many bytes SUM appends. -/
def Obligations.SizeCommandResult : Prop :=
  (∀ arg : Word, decodeCommand (mkHeader 6#3 arg) [] = .size) ∧
  (∀ s : State, s.tblValid = true → exec .size s = .next { s with responses := s.responses ++ [.count 8] }) ∧
  ∀ (pre : List Byte) (s : State), s.tblValid = true → ∃ t bs, exec (.sum pre) s = .next t ∧
    t.responses = s.responses ++ [.bytes bs] ∧ bs.length = pre.length + 8

/-- CHECKSUM (R94): encoding, `update(seed, data)` as the response with nothing else changed (`acc` is neither read nor
written), the empty data, the chaining of two CHECKSUMs, and the known answer. -/
def Obligations.ChecksumCommandResult : Prop :=
  (∀ (value : Word) (data : List Byte), decodeCommand (mkHeader 7#3 value) data = .checksum value data) ∧
  (∀ (value : Word) (data : List Byte) (s : State), s.tblValid = true →
    exec (.checksum value data) s = .next { s with responses := s.responses ++ [.word (update s.tbl value data)] }) ∧
  (∀ (t : TableSet) (value : Word), update t value [] = value) ∧
  (∀ (value : Word) (A B : List Byte) (s : State), s.tblValid = true → s.tbl = tables →
    exec (.checksum (update tables value A) B) s = exec (.checksum value (A ++ B)) s) ∧
  update tables 0#64 [0x31#8, 0x32#8, 0x33#8, 0x34#8, 0x35#8, 0x36#8, 0x37#8, 0x38#8, 0x39#8] = 0xe9c6d914c4b8d9ca#64

/-- CHECKSUM answers what `SEED seed; WRITE data; SUM64` answers last, without touching the accumulator (30_encoding.md
section 6, equivalence (a)). -/
def Obligations.ChecksumEqualsSeedWriteSum : Prop :=
  ∀ (value : Word) (data : List Byte) (s : State), s.tblValid = true →
    ∃ t r, Safety.execAll [.seed value, .write data, .sum64] s = .next t ∧
      t.responses = s.responses ++ [.done, .count data.length, .word r] ∧
      exec (.checksum value data) s = .next { s with responses := s.responses ++ [.word r] }

/-- A command run while the tables are unpublished is held: it changes nothing and answers nothing (the model's reading at
the level of one operation, DEDUCED, unsafe, log entry 7). -/
def Obligations.CommandsAreHeldUntilPublication : Prop :=
  ∀ (i : Instr) (s : State), i.issuer = .host → s.tblValid = false → exec i s = .next s

/-! ## Whole-machine rules -/

/-- No operation raises anything, under any input (60_exceptions.md section 1): every operation on every state answers a next
state. The spec says so of accepted commands and of BUILD when it is due; that a command or a fold run before publication
answers a next state (DEDUCED, unsafe, log entry 7), and BUILD run after it (DEDUCED, unsafe, log entry 8), is the model's
choice. -/
def Obligations.NoOperationRaises : Prop := ∀ (i : Instr) (s : State), ∃ t, exec i s = .next t

/-- From every state that meets the invariant, a step answers a next state: no fault, no refusal (60_exceptions.md
sections 1 and 5). That there is a step when nothing is issued and nothing waits is the model's choice (DEDUCED, unsafe, log
entry 4). -/
def Obligations.StepAlwaysGoesOn : Prop := ∀ s : State, Safety.Inv s → ∃ t, step s = .next t

/-- Each piece of state is written only by the operations the spec names: `tbl` and `tbl_valid` by BUILD (10_state.md
sections 1 and 2), `acc` by RESET, SEED, WRITE and the two folds, the responses by commands, which only add to them; and no
operation touches what the host has still to issue, the waiting micro-operation or the count of lifetimes. That a
micro-operation leaves the responses as they were is the model's choice (DEDUCED, unsafe, log entry 19). The list `host`, the
list `responses`, the counter `lifetime` and the field `uop` are the model's own (DESIGN CHOICE, unsafe, log entries 2, 3, 5
and 6). -/
def Obligations.OnlyTheNamedWriters : Prop :=
  ∀ (i : Instr) (s t : State), exec i s = .next t →
    (i ≠ .build → t.tbl = s.tbl ∧ t.tblValid = s.tblValid) ∧
    ((∀ v, i ≠ .seed v) → (∀ d, i ≠ .write d) → i ≠ .reset → (∀ v, i ≠ .fold1 v) → (∀ w, i ≠ .fold8 w) → t.acc = s.acc) ∧
    (i.issuer = .sequencer → t.responses = s.responses) ∧
    (∃ rs, t.responses = s.responses ++ rs) ∧
    t.uop = s.uop ∧ t.host = s.host ∧ t.lifetime = s.lifetime

/-- Responses (R46): a command accepted with the tables published answers exactly once, with a response of its own kind. -/
def Obligations.OneResponseOfTheRightKind : Prop :=
  ∀ (i : Instr) (s : State), s.tblValid = true → i.issuer = .host →
    ∃ t r, exec i s = .next t ∧ t.responses = s.responses ++ [r] ∧ Safety.Answers i r

/-- The accumulator holds all the history there is (10_state.md section 1): two published machines with the same accumulator
and the same tables, whatever else differs, give the same responses to every sequence of operations and end with the same
accumulator and tables. -/
def Obligations.AccumulatorIsAllTheHistory : Prop :=
  ∀ (is : List Instr) (s s' : State), s.tblValid = true → s'.tblValid = true → s.acc = s'.acc → s.tbl = s'.tbl →
    ∃ t t' rs, Safety.execAll is s = .next t ∧ Safety.execAll is s' = .next t' ∧
      t.responses = s.responses ++ rs ∧ t'.responses = s'.responses ++ rs ∧ t.acc = t'.acc ∧ t.tbl = t'.tbl ∧
      t.tblValid = true ∧ t'.tblValid = true

/-- The reading operations (20_memory.md section 4): SUM64, SUM, BLOCK_SIZE, SIZE and CHECKSUM may be put anywhere in a
sequence of operations without changing the accumulator, the tables or the later responses. -/
def Obligations.ReadsHaveNoSideEffect : Prop :=
  ∀ (i : Instr) (is : List Instr) (s : State), s.tblValid = true →
    (i = .sum64 ∨ (∃ pre, i = .sum pre) ∨ i = .blockSize ∨ i = .size ∨ (∃ value data, i = .checksum value data)) →
    ∃ r t u rs, Safety.execAll (i :: is) s = .next t ∧ Safety.execAll is s = .next u ∧
      t.responses = s.responses ++ r :: rs ∧ u.responses = s.responses ++ rs ∧
      t.acc = u.acc ∧ t.tbl = u.tbl ∧ t.tblValid = u.tblValid

/-- The hold until publication (60_exceptions.md section 5): with `tbl_valid = 0` and a command at the head of what the host has issued, a step is
BUILD, which publishes the tables; the command is still there, unanswered, with the accumulator as it was; and the next step
accepts it. The micro-operation waiting, if any, is reset's BUILD. That BUILD's word waits in the field `uop` and is used up
by the step, and that the command stands in the list `host` and is taken one a step, is the model's choice (DESIGN CHOICE,
unsafe, log entries 2 and 6). -/
def Obligations.HeldCommandIsAcceptedAfterBuild : Prop :=
  ∀ (s : State) (hdr : Header) (payload : List Byte) (rest : List HostEvent),
    s.tblValid = false → (s.uop = none ∨ s.uop = some buildWord) → s.host = .command hdr payload :: rest →
    ∃ t, step s = .next t ∧ t = { s with tblValid := true, tbl := tables, uop := none } ∧
      step t = exec (decodeCommand hdr payload) { t with host := rest } ∧
      ∃ u, step t = .next u ∧ u.responses.length = s.responses.length + 1

/-- Every step keeps the invariant: the tables are `TABLES` whenever they can be read (10_state.md section 8), and a waiting
micro-operation word is one that a sequencer can generate. That the word waits in a field, and which words the model takes
for generated, is the model's choice (DESIGN CHOICE, unsafe, log entry 6; DEDUCED, safe, log entry 13). -/
def Obligations.StepKeepsInvariant : Prop := ∀ s t : State, Safety.Inv s → step s = .next t → Safety.Inv t

/-- The invariant holds right after reset. That a word waits in a field then is the model's choice (DESIGN CHOICE, unsafe, log
entry 6). -/
def Obligations.ResetMeetsInvariant : Prop := Safety.Inv State.reset

/-- Every step keeps this: either BUILD is still to come, with `tbl_valid` 0 and its word waiting, or it has happened, with
`tbl_valid` 1 and nothing waiting (40_table_generation.md section 4). It counts no BUILDs; that none but BUILD sets
`tbl_valid` and no operation puts a word back is in OnlyTheNamedWriters. The field that holds the word, and its `opnd` 0, are
the model's choice (DESIGN CHOICE, unsafe, log entry 6). -/
def Obligations.StepKeepsOneBuild : Prop := ∀ s t : State, Safety.OneBuild s → step s = .next t → Safety.OneBuild t

/-- Right after reset `tbl_valid` is 0 and the word of BUILD waits. That reset generates BUILD is the spec's
(70_reset_and_hazards.md section 1); that its word waits in the field `uop`, with `opnd` 0, is the reset value that the model
chose (DESIGN CHOICE, unsafe, log entry 6). -/
def Obligations.ResetOwesOneBuild : Prop := Safety.OneBuild State.reset

/-- The reset values (R25): `acc` 0 and `tbl_valid` 0 after reset; `acc` still 0, every `tbl[k][b]` equal to `TABLES[k][b]`
and `tbl_valid` 1 after BUILD, whatever the tables held at reset; and the constants at their fixed values. -/
def Obligations.ResetValues : Prop :=
  State.reset.acc = 0#64 ∧ State.reset.tblValid = false ∧
  (∀ any : TableSet, ∃ t, step { State.reset with tbl := any } = .next t ∧
    t.acc = 0#64 ∧ (∀ k b, lutRead t.tbl k b = lutRead tables k b) ∧ t.tblValid = true) ∧
  Config.poly = 0xad93d23594c935a9#64 ∧ Config.refIn = true ∧ Config.init = 0xffffffffffffffff#64 ∧
  Config.refOut = true ∧ Config.xorOut = 0#64 ∧ Config.blockSize = 1 ∧ Config.size = 8

/-- A hardware reset between two commands (70_reset_and_hazards.md section 1): the step that takes it leaves `acc` 0 and the
tables unpublished, and the step after it, which is BUILD, leaves the launch state; what the host has still to issue and
what it has been answered stay. That the word of BUILD waits in the field `uop` between the two steps, with `opnd` 0, and what
stays, is the model's choice (DESIGN CHOICE, unsafe, log entries 3, 6 and 14). -/
def Obligations.HardwareResetReachesLaunchState : Prop :=
  ∀ (s : State) (rest : List HostEvent), s.tblValid = true → s.uop = none → s.host = .hardReset :: rest →
    ∃ t u, step s = .next t ∧ t.acc = 0#64 ∧ t.tblValid = false ∧ t.uop = some buildWord ∧
      step t = .next u ∧ Safety.Ready u ∧ u.acc = 0#64 ∧ u.host = rest ∧ u.responses = s.responses

/-- A run (70_reset_and_hazards.md section 5): from any launch-shaped state with `n` commands issued and no reset, `n` steps
perform exactly those commands, one after another in issue order; the run has ended, with one response for each. That what the host has issued is a list in
State, taken one a step, is the model's choice (DESIGN CHOICE, unsafe, log entry 2). -/
def Obligations.RunPerformsCommandsInOrder : Prop :=
  ∀ (s : State) (cmds : List (Header × List Byte)), Safety.Ready s →
    s.host = (cmds.map fun c => HostEvent.command c.1 c.2) →
    ∃ t : State, Host.Core.run Sys2Proof.core cmds.length s = .next t ∧
      Safety.execAll (cmds.map fun c => decodeCommand c.1 c.2) { s with host := [] } = .next t ∧
      t.host = [] ∧ Safety.Ready t ∧ t.responses.length = s.responses.length + cmds.length

end
end

