-- ==== Sys2Proof/Laws/Decode.lean ====
section
/-! SUPPORT. The fields of an assembled word (30_encoding.md R44, R49). -/

namespace Sys2Proof

@[simp] theorem headerOp_mkHeader (op : BitVec 3) (arg : Word) : headerOp (mkHeader op arg) = op :=
  BitVec.extractLsb'_append_eq_right

@[simp] theorem headerArg_mkHeader (op : BitVec 3) (arg : Word) : headerArg (mkHeader op arg) = arg :=
  BitVec.extractLsb'_append_eq_left

@[simp] theorem microUop_mkMicro (uop : BitVec 2) (opnd : Word) : microUop (mkMicro uop opnd) = uop :=
  BitVec.extractLsb'_append_eq_right

@[simp] theorem microOpnd_mkMicro (uop : BitVec 2) (opnd : Word) : microOpnd (mkMicro uop opnd) = opnd :=
  BitVec.extractLsb'_append_eq_left

/-- A header is its two fields. -/
theorem mkHeader_fields (hdr : Header) : mkHeader (headerOp hdr) (headerArg hdr) = hdr := by
  apply BitVec.eq_of_getLsbD_eq
  intro i hi
  simp only [mkHeader, headerOp, headerArg, BitVec.getLsbD_append, BitVec.getLsbD_extractLsb']
  split <;> grind

/-- A micro-operation word is its two fields. -/
theorem mkMicro_fields (u : MicroWord) : mkMicro (microUop u) (microOpnd u) = u := by
  apply BitVec.eq_of_getLsbD_eq
  intro i hi
  simp only [mkMicro, microUop, microOpnd, BitVec.getLsbD_append, BitVec.getLsbD_extractLsb']
  split <;> grind

end Sys2Proof
end

