-- ==== Sys2Proof/Laws/State.lean ====
section
/-! SUPPORT. What each update of the state does to each field, true by unfolding the update once. -/

namespace Sys2Proof.Machine

variable (s : State)

@[simp] theorem State.setAcc_acc (v : Word) : (s.setAcc v).acc = v := rfl
@[simp] theorem State.setAcc_tbl (v : Word) : (s.setAcc v).tbl = s.tbl := rfl
@[simp] theorem State.setAcc_tblValid (v : Word) : (s.setAcc v).tblValid = s.tblValid := rfl
@[simp] theorem State.setAcc_uop (v : Word) : (s.setAcc v).uop = s.uop := rfl
@[simp] theorem State.setAcc_host (v : Word) : (s.setAcc v).host = s.host := rfl
@[simp] theorem State.setAcc_responses (v : Word) : (s.setAcc v).responses = s.responses := rfl
@[simp] theorem State.setAcc_lifetime (v : Word) : (s.setAcc v).lifetime = s.lifetime := rfl

@[simp] theorem State.respond_acc (r : Response) : (s.respond r).acc = s.acc := rfl
@[simp] theorem State.respond_tbl (r : Response) : (s.respond r).tbl = s.tbl := rfl
@[simp] theorem State.respond_tblValid (r : Response) : (s.respond r).tblValid = s.tblValid := rfl
@[simp] theorem State.respond_uop (r : Response) : (s.respond r).uop = s.uop := rfl
@[simp] theorem State.respond_host (r : Response) : (s.respond r).host = s.host := rfl
@[simp] theorem State.respond_responses (r : Response) : (s.respond r).responses = s.responses ++ [r] := rfl
@[simp] theorem State.respond_lifetime (r : Response) : (s.respond r).lifetime = s.lifetime := rfl

@[simp] theorem State.publish_acc (t : TableSet) : (s.publish t).acc = s.acc := rfl
@[simp] theorem State.publish_tbl (t : TableSet) : (s.publish t).tbl = t := rfl
@[simp] theorem State.publish_tblValid (t : TableSet) : (s.publish t).tblValid = true := rfl
@[simp] theorem State.publish_uop (t : TableSet) : (s.publish t).uop = s.uop := rfl
@[simp] theorem State.publish_host (t : TableSet) : (s.publish t).host = s.host := rfl
@[simp] theorem State.publish_responses (t : TableSet) : (s.publish t).responses = s.responses := rfl
@[simp] theorem State.publish_lifetime (t : TableSet) : (s.publish t).lifetime = s.lifetime := rfl

@[simp] theorem State.hardReset_acc : (s.hardReset).acc = 0#64 := rfl
@[simp] theorem State.hardReset_tbl : (s.hardReset).tbl = unspecifiedTables (s.lifetime + 1) := rfl
@[simp] theorem State.hardReset_tblValid : (s.hardReset).tblValid = false := rfl
@[simp] theorem State.hardReset_uop : (s.hardReset).uop = some buildWord := rfl
@[simp] theorem State.hardReset_host : (s.hardReset).host = s.host := rfl
@[simp] theorem State.hardReset_responses : (s.hardReset).responses = s.responses := rfl
@[simp] theorem State.hardReset_lifetime : (s.hardReset).lifetime = s.lifetime + 1 := rfl

end Sys2Proof.Machine
end

