-- ==== Sys2Proof/Laws/Fetch.lean ====
section
/-! SUPPORT. All that a step can do, said once: which of the cases of `fetch` it takes (60_exceptions.md R101;
70_reset_and_hazards.md R108, R113, R117). -/

namespace Sys2Proof.Machine

variable {s t : State}

theorem fetch_unpublished (h : s.tblValid = false) : fetch s = nextUnpublished s := by simp [fetch, h]

theorem fetch_micro {u : MicroWord} (h : s.tblValid = true) (hu : s.uop = some u) : fetch s = nextMicro u s := by
  simp [fetch, h, hu]

theorem fetch_host (h : s.tblValid = true) (hu : s.uop = none) : fetch s = nextHost s := by simp [fetch, h, hu]

/-- If a step answers a next state, one of these five happened: BUILD, because the tables were unpublished; a waiting
micro-operation; the host's next command; a hardware reset; or nothing, with nothing issued. -/
theorem step_next (h : step s = .next t) :
    (s.tblValid = false ∧ exec .build { s with uop := s.uop.filter fun u => !isBuildWord u } = .next t) ∨
    (s.tblValid = true ∧ ∃ u i, s.uop = some u ∧ decodeMicro u = .ok i ∧ exec i { s with uop := none } = .next t) ∨
    (s.tblValid = true ∧ s.uop = none ∧ ∃ hdr payload rest, s.host = .command hdr payload :: rest ∧
      exec (decodeCommand hdr payload) { s with host := rest } = .next t) ∨
    (s.tblValid = true ∧ s.uop = none ∧ ∃ rest, s.host = .hardReset :: rest ∧
      t = State.hardReset { s with host := rest }) ∨
    (s.tblValid = true ∧ s.uop = none ∧ s.host = [] ∧ t = s) := by
  rcases Bool.eq_false_or_eq_true s.tblValid with hv | hv
  · obtain hu | ⟨u, hu⟩ := Option.eq_none_or_eq_some s.uop
    · rw [step, fetch_host hv hu, nextHost] at h
      cases hh : s.host with
      | nil =>
        simp only [hh, Host.Outcome.next.injEq] at h
        exact .inr (.inr (.inr (.inr ⟨hv, hu, rfl, h.symm⟩)))
      | cons e rest =>
        cases e with
        | command hdr payload => exact .inr (.inr (.inl ⟨hv, hu, hdr, payload, rest, rfl, by simpa only [hh] using h⟩))
        | hardReset =>
          simp only [hh, Host.Outcome.next.injEq] at h
          exact .inr (.inr (.inr (.inl ⟨hv, hu, rest, rfl, h.symm⟩)))
    · rw [step, fetch_micro hv hu, nextMicro] at h
      cases hd : decodeMicro u with
      | error why => simp [hd] at h
      | ok i => exact .inr (.inl ⟨hv, u, i, hu, hd, by simpa only [hd] using h⟩)
  · rw [step, fetch_unpublished hv, nextUnpublished] at h
    exact .inl ⟨hv, h⟩

/-- `State.published` is the machine after BUILD, if it has not happened yet. -/
theorem published_tblValid (s : State) : s.published.tblValid = true := by
  cases h : s.tblValid <;> simp [State.published, h]

/-- BUILD does not touch what the host has still to issue. -/
theorem published_host (s : State) : s.published.host = s.host := by
  cases h : s.tblValid <;> simp [State.published, h]

/-! ## What runs from a placed word

A word placed by `State.withFetchWord` runs at the very next step, on any state. -/

/-- A placed command runs, with the tables published and no micro-operation in its way. -/
theorem step_withFetchWord_command {nbits : Nat} (s : State) (w : Nat) (h : nbits ≠ 66) :
    step (s.withFetchWord nbits w) =
      exec (decodeCommand (BitVec.ofNat 67 w) []) { s.published with uop := none } := by
  have hp : s.withFetchWord nbits w =
      { s.published with uop := none, host := .command (BitVec.ofNat 67 w) [] :: s.host } := by
    simp [State.withFetchWord, State.place, isMicroWidth, h]
  rw [hp, step, fetch_host (by exact published_tblValid s) rfl, nextHost, ← published_host s]

/-- A placed FOLD runs, with the tables published. -/
theorem step_withFetchWord_fold {i : Instr} (s : State) (w : Nat) (hb : isBuildWord (BitVec.ofNat 66 w) = false)
    (hi : decodeMicro (BitVec.ofNat 66 w) = .ok i) :
    step (s.withFetchWord 66 w) = exec i { s.published with uop := none } := by
  have hp : s.withFetchWord 66 w = { s.published with uop := some (BitVec.ofNat 66 w) } := by
    simp [State.withFetchWord, State.place, isMicroWidth, hb]
  rw [hp, step, fetch_micro (by exact published_tblValid s) rfl, nextMicro, hi]

/-- A placed BUILD runs, with the tables unpublished. -/
theorem step_withFetchWord_build (s : State) (w : Nat) (hb : isBuildWord (BitVec.ofNat 66 w) = true) :
    step (s.withFetchWord 66 w) = exec .build { s with tblValid := false, uop := none } := by
  have hp : s.withFetchWord 66 w = { s with tblValid := false, uop := some (BitVec.ofNat 66 w) } := by
    simp [State.withFetchWord, State.place, isMicroWidth, hb]
  rw [hp, step, fetch_unpublished rfl, nextUnpublished]
  simp [Option.filter, hb]

end Sys2Proof.Machine
end

