-- ==== Sys2Proof/Laws/Flags.lean ====
section
/-! SUPPORT. All that the two gates can do: the machine never stops at a gate, and goes on with `f` exactly when the gate is
open. -/

namespace Sys2Proof.Machine

variable {s t : State} {f : State → State}

theorem whenPublished_open (h : s.tblValid = true) : whenPublished s f = .next (f s) := by simp [whenPublished, h]

theorem whenPublished_held (h : s.tblValid = false) : whenPublished s f = .next s := by simp [whenPublished, h]

theorem whenUnpublished_open (h : s.tblValid = false) : whenUnpublished s f = .next (f s) := by
  simp [whenUnpublished, h]

theorem whenUnpublished_done (h : s.tblValid = true) : whenUnpublished s f = .next s := by simp [whenUnpublished, h]

/-- What a gate for the published machine answers. -/
theorem whenPublished_next (h : whenPublished s f = .next t) :
    (s.tblValid = true ∧ t = f s) ∨ (s.tblValid = false ∧ t = s) := by
  cases hv : s.tblValid <;> simp_all [whenPublished]

/-- What BUILD's gate answers. -/
theorem whenUnpublished_next (h : whenUnpublished s f = .next t) :
    (s.tblValid = false ∧ t = f s) ∨ (s.tblValid = true ∧ t = s) := by
  cases hv : s.tblValid <;> simp_all [whenUnpublished]

end Sys2Proof.Machine
end

