-- ==== Sys2Proof/Laws/Lut.lean ====
section
/-! SUPPORT. The laws of the LUT space (20_memory.md R31): distinct `(k, b)` are distinct locations, a read after a write,
and equality of table sets read entry by entry. -/

namespace Sys2Proof.Machine

theorem lutAddr_toNat (k : BitVec 3) (b : Byte) : (lutAddr k b).toNat = 256 * k.toNat + b.toNat := by
  have hb := b.isLt
  simp only [lutAddr, BitVec.toNat_append, Nat.shiftLeft_eq]
  rw [← Nat.shiftLeft_eq, ← Nat.shiftLeft_add_eq_or_of_lt hb, Nat.shiftLeft_eq]
  omega

theorem lutAddr_inj {k k' : BitVec 3} {b b' : Byte} :
    (lutAddr k b).toNat = (lutAddr k' b').toNat ↔ k = k' ∧ b = b' := by
  have hb := b.isLt
  have hb' := b'.isLt
  rw [lutAddr_toNat, lutAddr_toNat]
  constructor
  · intro h
    exact ⟨BitVec.eq_of_toNat_eq (by omega), BitVec.eq_of_toNat_eq (by omega)⟩
  · rintro ⟨rfl, rfl⟩
    rfl

@[simp] theorem lutRead_lutWrite_self (t : TableSet) (k : BitVec 3) (b : Byte) (v : Word) :
    lutRead (lutWrite t k b v) k b = v := by
  simp [lutRead, lutWrite]

theorem lutRead_lutWrite_other (t : TableSet) (v : Word) {k k' : BitVec 3} {b b' : Byte} (h : ¬ (k = k' ∧ b = b')) :
    lutRead (lutWrite t k b v) k' b' = lutRead t k' b' := by
  simp only [lutRead, lutWrite, Vector.getElem_set, lutAddr_inj, h, if_false]

/-- Two table sets are equal when every entry reads the same. -/
theorem tableSet_ext {t t' : TableSet} (h : ∀ k b, lutRead t k b = lutRead t' k b) : t = t' := by
  apply Vector.ext
  intro i hi
  have e : (lutAddr (BitVec.ofNat 3 (i / 256)) (BitVec.ofNat 8 i)).toNat = i := by
    rw [lutAddr_toNat, BitVec.toNat_ofNat, BitVec.toNat_ofNat]
    omega
  have := h (BitVec.ofNat 3 (i / 256)) (BitVec.ofNat 8 i)
  simpa only [lutRead, e] using this

theorem lutRead_listed (f : Nat → Word) (h) (k : BitVec 3) (b : Byte) :
    lutRead ⟨((List.range 2048).map f).toArray, h⟩ k b = f (lutAddr k b).toNat := by
  simp [lutRead]

/-- `LutRead(k, b)` of the constant table set is `TABLES[k][b]`. -/
theorem lutRead_tables (k : BitVec 3) (b : Byte) : lutRead tables k b = tableEntry k.toNat b := by
  have e : lutRead tables k b = tableEntry ((lutAddr k b).toNat / 256) (BitVec.ofNat 8 (lutAddr k b).toNat) := by
    unfold tables
    exact lutRead_listed _ _ k b
  have hb := b.isLt
  have e1 : (lutAddr k b).toNat / 256 = k.toNat := by rw [lutAddr_toNat]; omega
  have e2 : BitVec.ofNat 8 (lutAddr k b).toNat = b := by
    apply BitVec.eq_of_toNat_eq
    rw [BitVec.toNat_ofNat, lutAddr_toNat]
    omega
  rw [e, e1, e2]

end Sys2Proof.Machine
end

