-- ==== Sys2Proof/Laws/PerInstr.lean ====
section
/-! SUPPORT. Statements about every operation, made one constructor at a time. -/

namespace Sys2Proof.Laws

/-- The encoding of an operation has the format of its issuer: the host's is a command whose payload is one the command
carries (30_encoding.md R44, R45), a sequencer's is a micro-operation word (R49). -/
def IssuerFormat.Statement (i : Instr) : Prop :=
  match encode i with
  | .command hdr payload => i.issuer = .host ∧ Safety.payloadDuty hdr payload = true
  | .micro _ => i.issuer = .sequencer

theorem IssuerFormat.reset : IssuerFormat.Statement .reset := ⟨rfl, rfl⟩
theorem IssuerFormat.seed (value : Word) : IssuerFormat.Statement (.seed value) := ⟨rfl, rfl⟩
theorem IssuerFormat.write (data : List Byte) : IssuerFormat.Statement (.write data) :=
  ⟨rfl, by simp [Safety.payloadDuty]⟩
theorem IssuerFormat.sum64 : IssuerFormat.Statement .sum64 := ⟨rfl, rfl⟩
theorem IssuerFormat.sum (pre : List Byte) : IssuerFormat.Statement (.sum pre) := ⟨rfl, by simp [Safety.payloadDuty]⟩
theorem IssuerFormat.blockSize : IssuerFormat.Statement .blockSize := ⟨rfl, rfl⟩
theorem IssuerFormat.size : IssuerFormat.Statement .size := ⟨rfl, rfl⟩
theorem IssuerFormat.checksum (value : Word) (data : List Byte) : IssuerFormat.Statement (.checksum value data) :=
  ⟨rfl, by simp [Safety.payloadDuty]⟩
theorem IssuerFormat.build : IssuerFormat.Statement .build := rfl
theorem IssuerFormat.fold1 (v : Byte) : IssuerFormat.Statement (.fold1 v) := rfl
theorem IssuerFormat.fold8 (word : Word) : IssuerFormat.Statement (.fold8 word) := rfl

end Sys2Proof.Laws
end

