-- ==== Sys2Proof/Laws/Tables.lean ====
section
/-! SUPPORT. The Table Builder (40_table_generation.md R60 to R64): the entry function is linear over XOR; the write loops of
BUILD's pseudocode leave the constant table set whatever stood there before; and all that BUILD can do. -/

namespace Sys2Proof.Machine

/-! ## The entry function is linear -/

/-- A bit step is the shift, XORed with the polynomial when the bit is set (R61). -/
theorem crcBitStep_eq (v : Word) (c : Bool) :
    crcBitStep v c = v <<< 1 ^^^ bif v.getLsbD 63 ^^ c then Config.poly else 0#64 := by
  unfold crcBitStep
  cases v.getLsbD 63 ^^ c <;> simp

theorem poly_if_xor (a b : Bool) :
    (bif a ^^ b then Config.poly else 0#64) =
      (bif a then Config.poly else 0#64) ^^^ bif b then Config.poly else 0#64 := by
  cases a <;> cases b <;> simp

theorem crcBitStep_xor (v w : Word) (c d : Bool) :
    crcBitStep (v ^^^ w) (c ^^ d) = crcBitStep v c ^^^ crcBitStep w d := by
  simp only [crcBitStep_eq, BitVec.getLsbD_xor, BitVec.shiftLeft_xor_distrib, poly_if_xor]
  ac_rfl

theorem rev64_xor (v w : Word) : rev64 (v ^^^ w) = rev64 v ^^^ rev64 w := by
  apply BitVec.eq_of_getLsbD_eq
  intro i hi
  simp [rev64, BitVec.getLsbD_reverse, BitVec.getMsbD_xor]

theorem t0Register_xor (b c : Byte) (l : List Nat) (v w : Word) :
    l.foldl (fun v i => crcBitStep v ((b ^^^ c).getLsbD i)) (v ^^^ w) =
      l.foldl (fun v i => crcBitStep v (b.getLsbD i)) v ^^^ l.foldl (fun v i => crcBitStep v (c.getLsbD i)) w := by
  induction l generalizing v w with
  | nil => rfl
  | cons i l ih => rw [List.foldl_cons, BitVec.getLsbD_xor, crcBitStep_xor, ih, List.foldl_cons, List.foldl_cons]

theorem t0Entry_xor (b c : Byte) : t0Entry (b ^^^ c) = t0Entry b ^^^ t0Entry c := by
  have := t0Register_xor b c [0, 1, 2, 3, 4, 5, 6, 7] 0#64 0#64
  rw [t0Entry, t0Entry, t0Entry, ← rev64_xor]
  exact congrArg rev64 this

theorem t0Entry_zero : t0Entry 0#8 = 0#64 := by
  simpa using t0Entry_xor 0#8 0#8

/-- The recurrence of tables 1 to 7 (R64). -/
theorem tableEntry_succ (k : Nat) (b : Byte) :
    tableEntry (k + 1) b = t0Entry (byteOf 0 (tableEntry k b)) ^^^ tableEntry k b >>> 8 := rfl

/-! ## The write loops leave the constant table set -/

theorem mem_allBytes (b : Byte) : b ∈ allBytes :=
  List.mem_map.mpr ⟨b.toNat, List.mem_range.mpr b.isLt, by simp⟩

/-- One loop of BUILD over table `k`: every entry the list names holds its value, and no other table is touched, provided the
value written for an entry is the same in every table set that agrees outside table `k`. -/
theorem buildLoop_spec {k : BitVec 3} {f : TableSet → Byte → Word}
    (hf : ∀ t t' : TableSet, (∀ k' b, k' ≠ k → lutRead t k' b = lutRead t' k' b) → f t = f t') (l : List Byte) (t : TableSet) :
    (∀ k' b, k' ≠ k → lutRead (l.foldl (fun t b => lutWrite t k b (f t b)) t) k' b = lutRead t k' b) ∧
    (∀ b, b ∈ l → lutRead (l.foldl (fun t b => lutWrite t k b (f t b)) t) k b = f t b) ∧
    (∀ b, b ∉ l → lutRead (l.foldl (fun t b => lutWrite t k b (f t b)) t) k b = lutRead t k b) := by
  induction l generalizing t with
  | nil => simp
  | cons c l ih =>
    obtain ⟨h1, h2, h3⟩ := ih (lutWrite t k c (f t c))
    have w : ∀ k' b, k' ≠ k → lutRead (lutWrite t k c (f t c)) k' b = lutRead t k' b := fun k' b hk =>
      lutRead_lutWrite_other _ _ fun h => hk h.1.symm
    have e : f (lutWrite t k c (f t c)) = f t := hf _ _ w
    refine ⟨fun k' b hk => (h1 k' b hk).trans (w k' b hk), fun b hb => ?_, fun b hb => ?_⟩
    · rw [List.foldl_cons]
      by_cases hl : b ∈ l
      · rw [h2 b hl, e]
      · obtain rfl : b = c := by simpa [hl] using hb
        rw [h3 b hl, lutRead_lutWrite_self]
    · rw [List.mem_cons, not_or] at hb
      rw [List.foldl_cons, h3 b hb.2, lutRead_lutWrite_other _ _ fun h => hb.1 h.2.symm]

theorem lutRead_writeTable0 (t : TableSet) (b : Byte) : lutRead (writeTable0 t) 0#3 b = t0Entry b :=
  (buildLoop_spec (f := fun _ => t0Entry) (fun _ _ _ => rfl) allBytes t).2.1 b (mem_allBytes b)

theorem pred_ne : ∀ k : BitVec 3, k - 1#3 ≠ k := by decide

theorem lutRead_writeDerived {k : BitVec 3} (hk : k ≠ 0#3) (t : TableSet) (b : Byte) :
    lutRead (writeDerived t k) k b = derivedEntry t k b ∧
      ∀ k', k' ≠ k → lutRead (writeDerived t k) k' b = lutRead t k' b := by
  have hf : ∀ t t' : TableSet, (∀ k' b, k' ≠ k → lutRead t k' b = lutRead t' k' b) →
      (fun b => derivedEntry t k b) = fun b => derivedEntry t' k b := by
    intro t t' h
    funext b
    have hp : k - 1#3 ≠ k := pred_ne k
    simp only [derivedEntry, h _ _ hp, h _ _ (Ne.symm hk)]
  have := buildLoop_spec (f := fun t b => derivedEntry t k b) hf allBytes t
  exact ⟨this.2.1 b (mem_allBytes b), fun k' h => this.1 k' b h⟩

/-- The tables up to `n` are built. -/
def BuiltUpTo (n : Nat) (t : TableSet) : Prop := ∀ k : BitVec 3, k.toNat ≤ n → ∀ b, lutRead t k b = tableEntry k.toNat b

theorem builtUpTo_writeDerived {n : Nat} {k : BitVec 3} {t : TableSet} (hk : k.toNat = n + 1) (h : BuiltUpTo n t) :
    BuiltUpTo (n + 1) (writeDerived t k) := by
  have k0 : k ≠ 0#3 := fun h => by simp [h] at hk
  have kp : (k - 1#3).toNat = n := by
    have := k.isLt
    rw [BitVec.toNat_sub]
    simp
    omega
  intro k' hk' b
  obtain ⟨hs, ho⟩ := lutRead_writeDerived k0 t b
  by_cases e : k' = k
  · subst e
    have hprev : lutRead t (k' - 1#3) b = tableEntry n b := by rw [h _ (by omega), kp]
    have hzero : ∀ b, lutRead t 0#3 b = t0Entry b := h 0#3 (Nat.zero_le n)
    rw [hs, derivedEntry, hprev, hzero, hk, tableEntry_succ]
  · rw [ho k' e]
    refine h k' ?_ b
    have : k'.toNat ≠ k.toNat := fun h => e (BitVec.eq_of_toNat_eq h)
    omega

/-- BUILD's table writes leave `TABLES`, whatever the table set held before (R60, R62, R64). -/
theorem buildWrites_eq (t : TableSet) : buildWrites t = tables := by
  have h0 : BuiltUpTo 0 (writeTable0 t) := by
    intro k hk b
    obtain rfl : k = 0#3 := BitVec.eq_of_toNat_eq (by simpa using hk)
    exact lutRead_writeTable0 t b
  have h1 := builtUpTo_writeDerived (k := 1#3) (by decide) h0
  have h2 := builtUpTo_writeDerived (k := 2#3) (by decide) h1
  have h3 := builtUpTo_writeDerived (k := 3#3) (by decide) h2
  have h4 := builtUpTo_writeDerived (k := 4#3) (by decide) h3
  have h5 := builtUpTo_writeDerived (k := 5#3) (by decide) h4
  have h6 := builtUpTo_writeDerived (k := 6#3) (by decide) h5
  have h7 := builtUpTo_writeDerived (k := 7#3) (by decide) h6
  refine tableSet_ext fun k b => ?_
  unfold buildWrites
  simp only [List.foldl_cons, List.foldl_nil]
  exact (h7 k (by have := k.isLt; omega) b).trans (lutRead_tables k b).symm

/-! ## BUILD -/

/-- All that BUILD can do: publish `TABLES`, or nothing once they are published. -/
theorem execBuild_next {s t : State} (h : execBuild s = .next t) :
    (s.tblValid = false ∧ t = s.publish tables) ∨ (s.tblValid = true ∧ t = s) := by
  rcases whenUnpublished_next h with ⟨hv, rfl⟩ | ⟨hv, rfl⟩
  · exact .inl ⟨hv, rfl⟩
  · exact .inr ⟨hv, rfl⟩

end Sys2Proof.Machine
end

