-- ==== Sys2Proof/Machine/Listing.lean ====
section
/-! DEFINITION. The written form of a command and of its response (30_encoding.md R52, decision D10), one to a line. It is
how the spec lists programs and carries no behaviour. Bytes are written in the bracketed form. The three micro-operations,
which the host never writes, are written as in program P5 of 95_test_vectors.md. -/

namespace Sys2Proof.Machine

/-- The last `digits` hexadecimal digits of `n`, in front of `rest`. -/
def hexDigits : (digits n : Nat) → (rest : List Char) → List Char
  | 0, _, rest => rest
  | d + 1, n, rest => hexDigits d (n / 16) ((n % 16).digitChar :: rest)

/-- `0x<16 hex digits>` (R52). -/
def hexWord (w : Word) : List Char := '0' :: 'x' :: hexDigits 16 w.toNat []

/-- `[<hex byte> <hex byte> ...]` (R52); the empty sequence is `[]`. -/
def hexBytes (bs : List Byte) : List Char :=
  '[' :: [' '].intercalate (bs.map fun b => hexDigits 2 b.toNat []) ++ [']']

/-- One operation as the spec lists it (R52). -/
def listing : Instr → List Char
  | .reset => "RESET".toList
  | .seed value => "SEED ".toList ++ hexWord value
  | .write data => "WRITE ".toList ++ hexBytes data
  | .sum64 => "SUM64".toList
  | .sum pre => "SUM ".toList ++ hexBytes pre
  | .blockSize => "BLOCK_SIZE".toList
  | .size => "SIZE".toList
  | .checksum value data => "CHECKSUM ".toList ++ hexWord value ++ ", ".toList ++ hexBytes data
  | .build => "BUILD".toList
  | .fold1 v => "FOLD1 v=0x".toList ++ hexDigits 2 v.toNat []
  | .fold8 word => "FOLD8 word=".toList ++ hexWord word

/-- One response as the spec lists it (R52): `-> value`, and nothing for a bare completion. -/
def listingOf : Response → List Char
  | .done => []
  | .count n => "-> ".toList ++ Nat.toDigits 10 n
  | .word v => "-> ".toList ++ hexWord v
  | .bytes bs => "-> ".toList ++ hexBytes bs

end Sys2Proof.Machine
end

