-- ==== Sys2Proof/Tests/Slice0.lean ====
section
/-! SUPPORT. Small tests, each about one step or one word, with the expected value from spec/95_test_vectors.md (V1 to V26,
P1 to P5) or the rule named; then, for each statement of Certificates/Slice0/Obligations.lean that has hypotheses, a witness
that meets them. -/

namespace Sys2Proof.Tests

open Machine

/-- The launch state (70_reset_and_hazards.md R116). -/
def ready : State := { State.reset with tblValid := true, tbl := tables, uop := none }

/-- The launch state with another accumulator. -/
def readyWith (acc : Word) : State := { ready with acc := acc }

/-- The accumulator of the next state. -/
def accOf : Host.Outcome State Fault Refusal → Option Word
  | .next s => some s.acc
  | .fault _ => none
  | .refused _ => none

/-- The responses of the next state. -/
def answersOf : Host.Outcome State Fault Refusal → Option (List Response)
  | .next s => some s.responses
  | .fault _ => none
  | .refused _ => none

/-- `"123456789"`. -/
def digits : List Byte := [0x31#8, 0x32#8, 0x33#8, 0x34#8, 0x35#8, 0x36#8, 0x37#8, 0x38#8, 0x39#8]

/-! ## What is not well formed is refused -/

/-- R43: BUILD is no command. -/
theorem test_host_may_not_issue_build : Instr.build.wellFormedFrom .host = false := by decide

/-- R43: RESET is no micro-operation. -/
theorem test_sequencer_may_not_issue_reset : Instr.reset.wellFormedFrom .sequencer = false := by decide

theorem test_host_may_issue_write : (Instr.write digits).wellFormedFrom .host = true := by decide

/-- R49: `uop = 11` is never generated. -/
theorem test_uop_three_rejected : decodeMicro 0b11#66 = .error .uopNeverGenerated := by decide

/-- R49: FOLD1 has `opnd[63:8] = 0`; here bit 8 of `opnd` is set. -/
theorem test_fold1_high_operand_rejected : decodeMicro 0b10000000001#66 = .error .fold1OperandHigh := by decide

/-- R45: RESET carries no payload. -/
theorem test_reset_payload_breaks_duty : Safety.payloadDuty 0#67 [0x00#8] = false := by decide

/-! ## Every constructor from a word written out from its encoding (V26, P1 to P5) -/

theorem test_decode_reset : decodeCommand 0b000#67 [] = .reset := by decide
/-- V26: `arg64` all ones, `op = 000`, is also RESET. -/
theorem test_decode_reset_ignores_arg : decodeCommand 0x7fffffffffffffff8#67 [] = .reset := by decide
theorem test_decode_seed : decodeCommand 0x21ac9e2ee6d290f81#67 [] = .seed 0x43593c5dcda521f0#64 := by decide
/-- R44: `arg64[0] = hdr[3]` and `arg64[63] = hdr[66]`. -/
theorem test_decode_seed_ends : decodeCommand 0b1000000000000000000000000000000000000000000000000000000000000001001#67 [] =
    .seed 0x8000000000000001#64 := by decide
theorem test_decode_write : decodeCommand 0b010#67 digits = .write digits := by decide
theorem test_decode_sum64 : decodeCommand 0b011#67 [] = .sum64 := by decide
theorem test_decode_sum : decodeCommand 0b100#67 [0xde#8, 0xad#8] = .sum [0xde#8, 0xad#8] := by decide
theorem test_decode_block_size : decodeCommand 0b101#67 [] = .blockSize := by decide
theorem test_decode_size : decodeCommand 0b110#67 [] = .size := by decide
theorem test_decode_checksum : decodeCommand 0x089119a22ab33bc47#67 [] = .checksum 0x1122334455667788#64 [] := by decide
theorem test_decode_build : decodeMicro 0b00#66 = .ok .build := by decide
/-- P5, step 4: `opnd = 0x39`, `uop = 01`. -/
theorem test_decode_fold1 : decodeMicro 0b0011100101#66 = .ok (.fold1 0x39#8) := by decide
/-- P5, step 3. -/
theorem test_decode_fold8 : decodeMicro 0x0e0dcd8d4d0ccc8c6#66 = .ok (.fold8 0x3837363534333231#64) := by decide

theorem test_encode_seed : encode (.seed 0x0123456789abcdef#64) = .command 0x0091a2b3c4d5e6f79#67 [] := by decide
theorem test_encode_fold1 : encode (.fold1 0x39#8) = .micro 0x000000000000000e5#66 := by decide

theorem test_table_word_checksum : decodeTableWord 72 7 = some (.checksum 0#64 []) := by decide
theorem test_table_word_short : decodeTableWord 8 3 = some .sum64 := by decide
theorem test_table_word_fold8 : decodeTableWord 66 2 = some (.fold8 0#64) := by decide
theorem test_table_word_never : decodeTableWord 66 3 = none := by decide

/-! ## The tables (V10 to V17) -/

/-- V10, step 1: the top bit was 1. -/
theorem test_bit_step : crcBitStep 0xad93d23594c935a9#64 false = 0xf6b4765ebd5b5efb#64 := by decide
/-- V12: all bits of the byte set, before the reversal. -/
theorem test_register_ff : t0Register 0xff#8 = 0x14e137f7e20bed94#64 := by decide +kernel
theorem test_table0_ff : t0Entry 0xff#8 = 0x29b7d047efec8728#64 := by decide +kernel
/-- V17. -/
theorem test_reflected_01 : t0EntryReflected 0x01#8 = 0x7ad870c830358979#64 := by decide +kernel
/-- V15, last line. -/
theorem test_tables_7_01 : lutRead tables 7#3 0x01#8 = 0x381d0015c96f4444#64 := by decide +kernel
/-- V16. -/
theorem test_tables_3_ff : lutRead tables 3#3 0xff#8 = 0x28511739c1e8c968#64 := by decide +kernel
/-- R31: `256*k + b`. -/
theorem test_lut_address : (lutAddr 7#3 0x01#8).toNat = 1793 := by decide

/-! ## One step of each operation -/

/-- V18: index 0xff, and the accumulator shifted. -/
theorem test_fold1 : accOf (exec (.fold1 0x10#8) (readyWith 0x0123456789abcdef#64)) = some 0x29b6f30288652ce5#64 := by
  decide +kernel
/-- V18: index 0, a pure shift with zero fill. -/
theorem test_fold1_shift : accOf (exec (.fold1 0xff#8) (readyWith 0xffffffffffffffff#64)) = some 0x00ffffffffffffff#64 := by
  decide +kernel
/-- V20: `"12345678"` on an accumulator of ones. -/
theorem test_fold8 : accOf (exec (.fold8 0x3837363534333231#64) (readyWith 0xffffffffffffffff#64)) =
    some 0xb8d03d71654020d8#64 := by decide +kernel
/-- V20: lane 0 alone meets table 7. -/
theorem test_fold8_lane0 : accOf (exec (.fold8 0x01#64) ready) = some 0x381d0015c96f4444#64 := by decide +kernel
/-- V26. -/
theorem test_reset : accOf (exec .reset (readyWith 0xe9c6d914c4b8d9ca#64)) = some 0#64 := by decide
theorem test_reset_answer : answersOf (exec .reset ready) = some [.done] := by decide
theorem test_seed_loads : accOf (exec (.seed 0x43593c5dcda521f0#64) (readyWith 0xe9c6d914c4b8d9ca#64)) =
    some 0x43593c5dcda521f0#64 := by decide
/-- V4, V26: one FOLD8, then one FOLD1. -/
theorem test_write : accOf (exec (.write digits) ready) = some 0xe9c6d914c4b8d9ca#64 := by decide +kernel
theorem test_write_answer : answersOf (exec (.write digits) ready) = some [.count 9] := by decide
theorem test_sum64 : answersOf (exec .sum64 (readyWith 0xe9c6d914c4b8d9ca#64)) = some [.word 0xe9c6d914c4b8d9ca#64] := by decide
theorem test_sum : answersOf (exec (.sum [0xaa#8]) (readyWith 0xe9c6d914c4b8d9ca#64)) =
    some [.bytes [0xaa#8, 0xca#8, 0xd9#8, 0xb8#8, 0xc4#8, 0x14#8, 0xd9#8, 0xc6#8, 0xe9#8]] := by decide
theorem test_block_size : answersOf (exec .blockSize ready) = some [.count 1] := by decide
theorem test_size : answersOf (exec .size ready) = some [.count 8] := by decide
/-- V25: the seed is used as is; this is not the known answer. -/
theorem test_checksum : answersOf (exec (.checksum 0xffffffffffffffff#64 digits) ready) = some [.word 0xcaa717168609f281#64] := by
  decide +kernel
/-- R94: `acc` is not written. -/
theorem test_checksum_keeps_acc : accOf (exec (.checksum 0#64 digits) (readyWith 0x43593c5dcda521f0#64)) =
    some 0x43593c5dcda521f0#64 := by decide
/-- R101: a command run before publication is held. -/
theorem test_held : answersOf (exec .size State.reset) = some [] := by decide
/-- V23, `n = 15`: one FOLD8 and seven FOLD1s. -/
theorem test_update_fifteen : update tables 0x0123456789abcdef#64 ((List.range 15).map (BitVec.ofNat 8)) =
    0xe4c3caa48535e367#64 := by decide +kernel

/-! ## Steps -/

/-- P5, steps 1 and 2: the WRITE is held, and BUILD comes first. -/
def early : State := { State.reset with host := [.command 2#67 digits] }

/-- P5, step 2: the WRITE is still there, unanswered. -/
theorem test_step_builds_first : (match step early with
    | .next s => s.tblValid && s.host == early.host && s.responses.isEmpty && s.uop.isNone
    | .fault _ => false
    | .refused _ => false) = true := by decide
/-- P5, steps 3 and 4 as one transaction. -/
theorem test_step_then_writes : accOf (core.run 2 early) = some 0xe9c6d914c4b8d9ca#64 := by decide +kernel
/-- R108: a hardware reset between commands clears the accumulator. -/
theorem test_step_hard_reset : accOf (step { readyWith 0x1#64 with host := [.hardReset] }) = some 0#64 := by decide
theorem test_placed_size_runs : answersOf (step (State.reset.withFetchWord 72 6)) = some [.count 8] := by decide
/-- R47, at the eight bits that hold a row's fixed bits: SUM64 is no micro-operation word 3. -/
theorem test_placed_sum64_runs : answersOf (step (State.reset.withFetchWord 8 3)) = some [.word 0#64] := by decide
/-- R94: no bytes, so the seed. -/
theorem test_placed_checksum_runs : answersOf (step (State.reset.withFetchWord 8 7)) = some [.word 0#64] := by decide
theorem test_placed_fold1_runs : accOf (step (State.reset.withFetchWord 66 0xc5)) = some 0xfdc17184a9f739fa#64 := by
  decide +kernel
theorem test_placed_build_runs : (match step (State.reset.withFetchWord 66 0) with
    | .next s => s.tblValid
    | .fault _ => false
    | .refused _ => false) = true := by decide

/-- R52, P3. -/
theorem test_listing_seed : listing (.seed 0x43593c5dcda521f0#64) = "SEED 0x43593c5dcda521f0".toList := by decide +kernel
theorem test_listing_answer : listingOf (.bytes [0xde#8, 0x0a#8]) = "-> [de 0a]".toList := by decide +kernel

/-! ## Witnesses: each statement's hypotheses can be met -/

/-- `ready` meets the hypotheses "published", "the tables are built" and "nothing waits". -/
theorem witness_ready : ready.tblValid = true ∧ ready.tbl = tables ∧ ready.uop = none ∧ ready.acc = 0#64 ∧ Safety.Ready ready :=
  ⟨rfl, rfl, rfl, rfl, rfl, rfl, rfl⟩

theorem witness_StepBuildsFirst : early.tblValid = false := rfl
theorem witness_StepRunsWaitingMicro :
    (ready.withFetchWord 66 0xe5).tblValid = true ∧ (ready.withFetchWord 66 0xe5).uop = some 0xe5#66 ∧
      decodeMicro 0xe5#66 = .ok (.fold1 0x39#8) := by decide
/-- The second clause: the only `uop` that no sequencer generates. -/
theorem witness_StepRunsWaitingMicro_rejected :
    (ready.withFetchWord 66 3).tblValid = true ∧ (ready.withFetchWord 66 3).uop = some 3#66 ∧
      decodeMicro 3#66 = .error .uopNeverGenerated := by decide
theorem witness_StepRunsIssuedCommand :
    (ready.withFetchWord 72 6).tblValid = true ∧ (ready.withFetchWord 72 6).uop = none ∧
      (ready.withFetchWord 72 6).host = .command 6#67 [] :: [] := by decide
theorem witness_StepIdlesAtTheEnd : ready.tblValid = true ∧ ready.uop = none ∧ ready.host = [] := by decide
/-- One header for each clause, with `arg64` all ones where it is ignored. -/
theorem witness_CommandOpcodeMap :
    0x7fffffffffffffff8#67 &&& 7#67 = 0#67 ∧ 0x7fffffffffffffff9#67 &&& 7#67 = 1#67 ∧
    0x7fffffffffffffffa#67 &&& 7#67 = 2#67 ∧ 0x7fffffffffffffffb#67 &&& 7#67 = 3#67 ∧
    0x7fffffffffffffffc#67 &&& 7#67 = 4#67 ∧ 0x7fffffffffffffffd#67 &&& 7#67 = 5#67 ∧
    0x7fffffffffffffffe#67 &&& 7#67 = 6#67 ∧ 0x7ffffffffffffffff#67 &&& 7#67 = 7#67 := by decide
/-- One word for each clause: FOLD1 with the greatest byte, and with the least bit above it. -/
theorem witness_MicroOpcodeMap :
    0x3fffffffffffffffc#66 &&& 3#66 = 0#66 ∧
    (0x3fd#66 &&& 3#66 = 1#66 ∧ (0x3fd#66).extractLsb' 10 56 = 0#56) ∧
    0x3fffffffffffffffe#66 &&& 3#66 = 2#66 ∧
    (0x401#66 &&& 3#66 = 1#66 ∧ (0x401#66).extractLsb' 10 56 ≠ 0#56) ∧
    0x3ffffffffffffffff#66 &&& 3#66 = 3#66 := by decide
theorem witness_DecodedWordReencodes :
    Safety.payloadDuty 0x7fffffffffffffffa#67 digits = true ∧ Safety.payloadDuty 0x7fffffffffffffffb#67 [] = true ∧
      decodeMicro 0x3fd#66 = .ok (.fold1 0xff#8) := by decide
theorem witness_EachInterfaceIssuesItsOwn : decodeMicro 0#66 = .ok .build := by decide
theorem witness_BitStepShiftsAndXors : 62 < 63 := by decide
theorem witness_TableZeroEntries : 63 < 64 := by decide
theorem witness_DerivedTablesFollowRecurrence : 1#3 ≠ 0#3 ∧ 7#3 ≠ 0#3 := by decide
theorem witness_BuildWritesTablesAndPublishes : State.reset.tblValid = false ∧ 7#3 ≠ 0#3 := by decide
/-- The clause on later steps: the host issues SIZE. -/
theorem witness_BuildWritesTablesAndPublishes_later : ready.tblValid = true ∧ ready.uop = none ∧
    fetch { ready with host := [.command 6#67 []] } = .run .size { ready with host := [] } := ⟨rfl, rfl, rfl⟩
theorem witness_SecondBuildDoesNothing : ready.tblValid = true := rfl
theorem witness_FoldOneResult : ready.tblValid = true ∧ ready.tbl = tables ∧ ready.acc = 0#64 := ⟨rfl, rfl, rfl⟩
theorem witness_FoldEightResult : ready.tblValid = true ∧ ready.tbl = tables ∧ 7 < 8 := ⟨rfl, rfl, by decide⟩
theorem witness_FoldsAreHeldUntilPublication : State.reset.tblValid = false := rfl
/-- The first clause: nine bytes give one word, and its last byte is byte 7. -/
theorem witness_UpdateIsItsMicroOperations :
    ready.tblValid = true ∧ microOps digits = [.fold8 0x3837363534333231#64, .fold1 0x39#8] ∧ 7 < 8 := by decide
theorem witness_EmptyInputChangesNothing : ready.tblValid = true := rfl
theorem witness_SliceByEightEqualsByteAtATime : ready.tblValid = true ∧ ready.tbl = tables := ⟨rfl, rfl⟩
theorem witness_KnownAnswer : ready.tblValid = true ∧ ready.tbl = tables := ⟨rfl, rfl⟩
theorem witness_ResetCommandResult : (readyWith 0xe9c6d914c4b8d9ca#64).tblValid = true := rfl
theorem witness_SeedCommandResult : ready.tblValid = true ∧ ready.tbl = tables := ⟨rfl, rfl⟩
theorem witness_WriteCommandResult : ready.tblValid = true ∧ ready.tbl = tables ∧ ready.acc = 0#64 := ⟨rfl, rfl, rfl⟩
theorem witness_Sum64CommandResult : ready.tblValid = true := rfl
theorem witness_SumCommandResult : ready.tblValid = true := rfl
theorem witness_BlockSizeCommandResult : ready.tblValid = true := rfl
theorem witness_SizeCommandResult : ready.tblValid = true := rfl
theorem witness_ChecksumCommandResult : ready.tblValid = true ∧ ready.tbl = tables := ⟨rfl, rfl⟩
theorem witness_ChecksumEqualsSeedWriteSum : ready.tblValid = true := rfl
theorem witness_CommandsAreHeldUntilPublication : Instr.size.issuer = .host ∧ State.reset.tblValid = false := by decide
theorem witness_StepAlwaysGoesOn : Safety.Inv ready :=
  ⟨fun _ => rfl, fun u hu => by simp [ready] at hu⟩
/-- The state at reset, with the BUILD word waiting, meets the invariant too. -/
theorem witness_StepKeepsInvariant : Safety.Inv early ∧ ∃ t, step early = .next t :=
  ⟨Safety.Inv.mk (fun h => by cases h) (fun u hu => ⟨.build, by cases hu; decide⟩), _, rfl⟩
theorem witness_OnlyTheNamedWriters : ∃ t, exec .sum64 ready = .next t := ⟨_, rfl⟩
theorem witness_OnlyTheNamedWriters_sequencer : Instr.build.issuer = .sequencer ∧ ∃ t, exec .build early = .next t :=
  ⟨rfl, _, rfl⟩
theorem witness_OneResponseOfTheRightKind : ready.tblValid = true ∧ Instr.sum64.issuer = .host := by decide
theorem witness_AccumulatorIsAllTheHistory :
    ready.tblValid = true ∧ early.acc = ready.acc ∧ { ready with responses := [.done] }.acc = ready.acc ∧
      { ready with responses := [.done] }.tbl = ready.tbl := ⟨rfl, rfl, rfl, rfl⟩
theorem witness_ReadsHaveNoSideEffect : ready.tblValid = true ∧ (∃ pre, Instr.sum [0xaa#8] = .sum pre) := ⟨rfl, _, rfl⟩
theorem witness_HeldCommandIsAcceptedAfterBuild :
    early.tblValid = false ∧ (early.uop = none ∨ early.uop = some buildWord) ∧ early.host = .command 2#67 digits :: [] :=
  ⟨rfl, .inr rfl, rfl⟩
theorem witness_StepKeepsOneBuild : Safety.OneBuild early ∧ ∃ t, step early = .next t := ⟨.inl ⟨rfl, rfl⟩, _, rfl⟩
theorem witness_StepKeepsOneBuild_published : Safety.OneBuild ready ∧ ∃ t, step ready = .next t :=
  ⟨.inr ⟨rfl, rfl⟩, _, rfl⟩
theorem witness_HardwareResetReachesLaunchState :
    { ready with host := [.hardReset] }.tblValid = true ∧ { ready with host := [.hardReset] }.uop = none ∧
      { ready with host := [.hardReset] }.host = .hardReset :: [] := by decide
theorem witness_RunPerformsCommandsInOrder :
    Safety.Ready { ready with host := [.command 2#67 digits, .command 3#67 []] } ∧
      { ready with host := [.command 2#67 digits, .command 3#67 []] }.host =
        [(2#67, digits), (3#67, [])].map fun c => HostEvent.command c.1 c.2 := ⟨⟨rfl, rfl, rfl⟩, rfl⟩

end Sys2Proof.Tests
end

section
/-! The reset values (10_state.md R25). A step on an unpublished machine is BUILD, said once for every such state; reset is
one of them whatever its tables hold. -/

namespace Sys2Proof.Machine

variable {s : State}

/-- BUILD on an unpublished machine (40_table_generation.md R60). -/
theorem exec_build_of_unpublished (h : s.tblValid = false) : exec .build s = .next (s.publish tables) := by
  rw [exec, execBuild, whenUnpublished_open h]

/-- The step of an unpublished machine publishes `TABLES` and uses up a waiting word of BUILD (R25, R108). -/
theorem step_of_unpublished (h : s.tblValid = false) :
    step s = .next (State.publish { s with uop := s.uop.filter fun u => !isBuildWord u } tables) := by
  rw [step, fetch_unpublished h, nextUnpublished]
  exact exec_build_of_unpublished h

end Sys2Proof.Machine

namespace Sys2Proof.Certificates.Slice0

open Machine

/-- Settles O49: the step after reset is BUILD, whatever the tables hold, and BUILD publishes `TABLES` and keeps `acc`. -/
theorem resetValues : Obligations.ResetValues := by
  refine ⟨rfl, rfl, fun any => ?_, rfl, rfl, rfl, rfl, rfl, rfl, rfl⟩
  have hstep := step_of_unpublished (s := { State.reset with tbl := any }) rfl
  exact ⟨_, hstep, rfl, fun k b => by rw [State.publish_tbl], State.publish_tblValid _ _⟩

end Sys2Proof.Certificates.Slice0
end

section
/-! The command opcode map (30_encoding.md R47). A header meets a row's match under the mask `0x7` exactly when its opcode
field is the match; the decoder's answer is then said once for each opcode. -/

namespace Sys2Proof

variable {hdr : Header}

/-- The mask `0x7` leaves the opcode field, with zeros above it (R44, R47). -/
theorem header_and_mask (hdr : Header) : hdr &&& 7#67 = (headerOp hdr).setWidth 67 := by
  apply BitVec.eq_of_toNat_eq
  have hmask : hdr.toNat &&& 7 = hdr.toNat % 8 := Nat.and_two_pow_sub_one_eq_mod hdr.toNat 3
  have hlow : hdr.toNat % 8 < 2 ^ 67 := by omega
  simpa [headerOp, hmask] using (Nat.mod_eq_of_lt hlow).symm

/-- A header whose masked bits are `op` has the opcode `op`. -/
theorem headerOp_of_match (op : BitVec 3) (h : hdr &&& 7#67 = op.setWidth 67) : headerOp hdr = op := by
  rw [header_and_mask] at h
  simpa using congrArg (BitVec.setWidth 3) h

variable (payload : List Byte)

theorem decodeCommand_of_op_zero (h : headerOp hdr = 0#3) : decodeCommand hdr payload = .reset := by
  rw [decodeCommand, h]; rfl

theorem decodeCommand_of_op_one (h : headerOp hdr = 1#3) : decodeCommand hdr payload = .seed (headerArg hdr) := by
  rw [decodeCommand, h]; rfl

theorem decodeCommand_of_op_two (h : headerOp hdr = 2#3) : decodeCommand hdr payload = .write payload := by
  rw [decodeCommand, h]; rfl

theorem decodeCommand_of_op_three (h : headerOp hdr = 3#3) : decodeCommand hdr payload = .sum64 := by
  rw [decodeCommand, h]; rfl

theorem decodeCommand_of_op_four (h : headerOp hdr = 4#3) : decodeCommand hdr payload = .sum payload := by
  rw [decodeCommand, h]; rfl

theorem decodeCommand_of_op_five (h : headerOp hdr = 5#3) : decodeCommand hdr payload = .blockSize := by
  rw [decodeCommand, h]; rfl

theorem decodeCommand_of_op_six (h : headerOp hdr = 6#3) : decodeCommand hdr payload = .size := by
  rw [decodeCommand, h]; rfl

theorem decodeCommand_of_op_seven (h : headerOp hdr = 7#3) :
    decodeCommand hdr payload = .checksum (headerArg hdr) payload := by
  rw [decodeCommand, h]; rfl

end Sys2Proof

namespace Sys2Proof.Certificates.Slice0

/-- Settles O7: the masked bits are the opcode field, which alone picks the decoder's case; `arg64` is the field
`headerArg`. -/
theorem commandOpcodeMap : Obligations.CommandOpcodeMap := fun _ payload =>
  ⟨fun h => decodeCommand_of_op_zero [] (headerOp_of_match 0#3 h),
   fun h => decodeCommand_of_op_one [] (headerOp_of_match 1#3 h),
   fun h => decodeCommand_of_op_two payload (headerOp_of_match 2#3 h),
   fun h => decodeCommand_of_op_three [] (headerOp_of_match 3#3 h),
   fun h => decodeCommand_of_op_four payload (headerOp_of_match 4#3 h),
   fun h => decodeCommand_of_op_five [] (headerOp_of_match 5#3 h),
   fun h => decodeCommand_of_op_six [] (headerOp_of_match 6#3 h),
   fun h => decodeCommand_of_op_seven payload (headerOp_of_match 7#3 h)⟩

end Sys2Proof.Certificates.Slice0
end

section
/-! The responses of the commands (30_encoding.md R46). What each command does on a published machine, said once
(42_accumulator_commands.md R87 to R94); every one of them ends in one `respond`. -/

namespace Sys2Proof.Machine

@[simp] theorem leBytes8_length (x : Word) : (leBytes8 x).length = 8 := rfl

variable {s : State}

theorem exec_reset_of_published (h : s.tblValid = true) :
    exec .reset s = .next ((s.setAcc 0#64).respond .done) := by
  rw [exec, execReset, whenPublished_open h]

theorem exec_seed_of_published (value : Word) (h : s.tblValid = true) :
    exec (.seed value) s = .next ((s.setAcc value).respond .done) := by
  rw [exec, execSeed, whenPublished_open h]

theorem exec_write_of_published (data : List Byte) (h : s.tblValid = true) :
    exec (.write data) s = .next ((s.setAcc (update s.tbl s.acc data)).respond (.count data.length)) := by
  rw [exec, execWrite, whenPublished_open h]

theorem exec_sum64_of_published (h : s.tblValid = true) : exec .sum64 s = .next (s.respond (.word s.acc)) := by
  rw [exec, execSum64, whenPublished_open h]

theorem exec_sum_of_published (pre : List Byte) (h : s.tblValid = true) :
    exec (.sum pre) s = .next (s.respond (.bytes (pre ++ leBytes8 s.acc))) := by
  rw [exec, execSum, whenPublished_open h]

theorem exec_blockSize_of_published (h : s.tblValid = true) : exec .blockSize s = .next (s.respond (.count 1)) := by
  rw [exec, execBlockSize, whenPublished_open h, Config.blockSize]

theorem exec_size_of_published (h : s.tblValid = true) : exec .size s = .next (s.respond (.count 8)) := by
  rw [exec, execSize, whenPublished_open h, Config.size]

theorem exec_checksum_of_published (value : Word) (data : List Byte) (h : s.tblValid = true) :
    exec (.checksum value data) s = .next (s.respond (.word (update s.tbl value data))) := by
  rw [exec, execChecksum, whenPublished_open h]

end Sys2Proof.Machine

namespace Sys2Proof.Certificates.Slice0

open Machine

/-- Settles O41, command by command: each ends in one `respond`, whose response has the command's kind; the micro-operations
are not issued by the host. -/
theorem oneResponseOfTheRightKind : Obligations.OneResponseOfTheRightKind := by
  intro i s hv hi
  cases i with
  | reset => exact ⟨_, _, exec_reset_of_published hv, State.respond_responses _ _, rfl⟩
  | seed value => exact ⟨_, _, exec_seed_of_published value hv, State.respond_responses _ _, rfl⟩
  | write data => exact ⟨_, _, exec_write_of_published data hv, State.respond_responses _ _, rfl⟩
  | sum64 => exact ⟨_, _, exec_sum64_of_published hv, State.respond_responses _ _, s.acc, rfl⟩
  | sum pre =>
    have hlen : (pre ++ leBytes8 s.acc).length = pre.length + 8 := by rw [List.length_append, leBytes8_length]
    exact ⟨_, _, exec_sum_of_published pre hv, State.respond_responses _ _, pre ++ leBytes8 s.acc, rfl, hlen⟩
  | blockSize => exact ⟨_, _, exec_blockSize_of_published hv, State.respond_responses _ _, rfl⟩
  | size => exact ⟨_, _, exec_size_of_published hv, State.respond_responses _ _, rfl⟩
  | checksum value data =>
    exact ⟨_, _, exec_checksum_of_published value data hv, State.respond_responses _ _, update s.tbl value data, rfl⟩
  | build => cases hi
  | fold1 _ => cases hi
  | fold8 _ => cases hi

end Sys2Proof.Certificates.Slice0
end

section
/-! The table generator (40_table_generation.md R61 to R65). Each entry of table `k` is the FOLD1 with the byte 0x00 of the
entry below it, so it is the fold of its byte and `k` zero bytes; the one list of eight bytes among these goes through FOLD8,
where only lane 0 meets a byte that is not 0. -/

namespace Sys2Proof.Machine

/-! ## Bit steps and table 0 -/

theorem getLsbD_crcBitStep (v : Word) (cbit : Bool) (i : Nat) :
    (crcBitStep v cbit).getLsbD i = ((v <<< 1).getLsbD i ^^ ((v.getLsbD 63 ^^ cbit) && Config.poly.getLsbD i)) := by
  rw [crcBitStep_eq, BitVec.getLsbD_xor]
  cases v.getLsbD 63 ^^ cbit <;> simp

theorem getLsbD_rev64 (x : Word) {i : Nat} (hi : i < 64) : (rev64 x).getLsbD i = x.getLsbD (63 - i) := by
  rw [rev64, BitVec.getLsbD_reverse, BitVec.getMsbD_eq_getLsbD, decide_eq_true hi, Bool.true_and]

theorem lutRead_tables_zero (c : Byte) : lutRead tables 0#3 c = t0Entry c := lutRead_tables 0#3 c

/-! ## Tables 1 to 7 -/

/-- A table other than table 0 has one below it. -/
theorem toNat_eq_pred_succ : ∀ k : BitVec 3, k ≠ 0#3 → k.toNat = (k - 1#3).toNat + 1 := by decide

theorem lutRead_tables_succ {k : BitVec 3} (b : Byte) (hk : k ≠ 0#3) :
    lutRead tables k b =
      lutRead tables 0#3 (byteOf 0 (lutRead tables (k - 1#3) b)) ^^^ lutRead tables (k - 1#3) b >>> 8 := by
  rw [lutRead_tables_zero, lutRead_tables, lutRead_tables, toNat_eq_pred_succ k hk, tableEntry_succ]

theorem fold1_zero_byte (t : TableSet) (a : Word) : fold1 t a 0#8 = lutRead t 0#3 (byteOf 0 a) ^^^ a >>> 8 := by
  rw [fold1, BitVec.xor_zero]

theorem fold1_zero_acc (t : TableSet) (v : Byte) : fold1 t 0#64 v = lutRead t 0#3 v := by
  simp [fold1, byteOf]

/-- The byte 0 keeps the register at 0 in table 0, and the recurrence keeps it so in every table. -/
theorem tableEntry_zero_byte (k : Nat) : tableEntry k 0#8 = 0#64 := by
  induction k with
  | zero => exact t0Entry_zero
  | succ k ih =>
    have hindex : byteOf 0 0#64 = 0#8 := by decide
    rw [tableEntry_succ, ih, hindex, t0Entry_zero, BitVec.zero_ushiftRight, BitVec.xor_zero]

@[simp] theorem lutRead_tables_zero_byte (k : BitVec 3) : lutRead tables k 0#8 = 0#64 := by
  rw [lutRead_tables, tableEntry_zero_byte]

/-- The recurrence is FOLD1 with the byte 0 (R64). -/
theorem fold1_tableEntry (k : Nat) (b : Byte) : fold1 tables (tableEntry k b) 0#8 = tableEntry (k + 1) b := by
  rw [fold1_zero_byte, lutRead_tables_zero, tableEntry_succ]

/-- `k` FOLD1s of 0 lead from table 0 to table `k` (R65). -/
theorem foldl_fold1_replicate_zero (k : Nat) (b : Byte) :
    (List.replicate k 0#8).foldl (fold1 tables) (fold1 tables 0#64 b) = tableEntry k b := by
  induction k with
  | zero => rw [List.replicate_zero, List.foldl_nil, fold1_zero_acc, lutRead_tables_zero, tableEntry]
  | succ k ih => rw [List.replicate_succ', List.foldl_append, ih, List.foldl_cons, List.foldl_nil, fold1_tableEntry]

/-! ## `update` of at most eight bytes -/

/-- Eight bits of a longer word, above an appended byte, stand eight places further up. -/
theorem extractLsb'_append_byte {n j : Nat} {hi : BitVec n} {d e : Byte} (h : hi.extractLsb' j 8 = e) :
    (hi ++ d).extractLsb' (j + 8) 8 = e := by
  rw [BitVec.extractLsb'_append_eq_of_le (Nat.le_add_left 8 j), Nat.add_sub_cancel, h]

/-- The serialisation of eight assembled bytes gives the bytes back (R10, R77). -/
theorem leBytes8_le64 (d0 d1 d2 d3 d4 d5 d6 d7 : Byte) :
    leBytes8 (le64 d0 d1 d2 d3 d4 d5 d6 d7) = [d0, d1, d2, d3, d4, d5, d6, d7] := by
  have low {n : Nat} {hi : BitVec n} {d : Byte} : (hi ++ d).extractLsb' 0 8 = d := BitVec.extractLsb'_append_eq_right
  have up := @extractLsb'_append_byte
  simp only [leBytes8, byteOf, le64, List.cons.injEq, and_true]
  exact ⟨low, up low, up (up low), up (up (up low)), up (up (up (up low))), up (up (up (up (up low)))),
    up (up (up (up (up (up low))))), up (up (up (up (up (up (up BitVec.extractLsb'_eq_self))))))⟩

/-- With fewer than eight bytes left, `update` takes FOLD1s only (R79). -/
theorem update_of_length_lt (t : TableSet) (data : List Byte) (h : data.length < 8) (a : Word) :
    update t a data = data.foldl (fold1 t) a := by
  induction data generalizing a with
  | nil => rfl
  | cons v rest ih =>
    rw [List.length_cons] at h
    have hshort : ∀ d1 d2 d3 d4 d5 d6 d7 l, rest = d1 :: d2 :: d3 :: d4 :: d5 :: d6 :: d7 :: l → False := by
      rintro d1 d2 d3 d4 d5 d6 d7 l rfl
      simp only [List.length_cons] at h
      omega
    rw [update, ih (by omega), List.foldl_cons]
    exact hshort

/-- FOLD8 of one byte and seven zero bytes: lane 0 reads table 7, every other lane reads a 0 (R76). -/
theorem fold8_tables_low_byte (b : Byte) :
    fold8 tables 0#64 (le64 b 0#8 0#8 0#8 0#8 0#8 0#8 0#8) = lutRead tables 7#3 b := by
  have hbytes := leBytes8_le64 b 0#8 0#8 0#8 0#8 0#8 0#8 0#8
  simp only [leBytes8, List.cons.injEq, and_true] at hbytes
  simp [fold8, hbytes]

theorem update_zeroExtended (k : BitVec 3) (b : Byte) :
    update tables 0#64 (b :: List.replicate k.toNat 0#8) = tableEntry k.toNat b := by
  by_cases hk : k.toNat < 7
  · rw [update_of_length_lt _ _ (by rw [List.length_cons, List.length_replicate]; omega), List.foldl_cons,
      foldl_fold1_replicate_zero]
  · obtain rfl : k = 7#3 := by bv_omega
    calc update tables 0#64 (b :: List.replicate 7 0#8)
        = fold8 tables 0#64 (le64 b 0#8 0#8 0#8 0#8 0#8 0#8 0#8) := rfl
      _ = tableEntry (7#3).toNat b := by rw [fold8_tables_low_byte, lutRead_tables]

end Sys2Proof.Machine

namespace Sys2Proof.Certificates.Slice0

open Machine

/-- Settles O12: a bit of the step is the shifted bit, XORed with the polynomial's when the step takes the polynomial. -/
theorem bitStepShiftsAndXors : Obligations.BitStepShiftsAndXors := by
  refine fun v cbit => ⟨?_, fun i hi => ?_⟩
  · have hshift : (v <<< 1).getLsbD 0 = false := by simp
    rw [getLsbD_crcBitStep, hshift, Bool.false_xor, Config.poly]
  · have hi' : i + 1 < 64 := by omega
    have hshift : (v <<< 1).getLsbD (i + 1) = v.getLsbD i := by
      rw [BitVec.getLsbD_shiftLeft, decide_eq_true hi']
      simp
    rw [getLsbD_crcBitStep, hshift, Config.poly]

/-- Settles O13: table 0 holds `t0Entry`; the examples are runs of eight bit steps, the last through the steps before it. -/
theorem tableZeroEntries : Obligations.TableZeroEntries := by
  have hfirst : crcBitStep 0#64 true = 0xad93d23594c935a9#64 := by decide
  have hsecond : crcBitStep 0xad93d23594c935a9#64 false = 0xf6b4765ebd5b5efb#64 := by decide
  have hrest : [false, false, false, false, false, false].foldl crcBitStep 0xf6b4765ebd5b5efb#64 =
    0x9e91ac0c130e1b5e#64 := by decide
  have hreverse : rev64 0x9e91ac0c130e1b5e#64 = 0x7ad870c830358979#64 := by decide +kernel
  have h80 : t0Entry 0x80#8 = 0x95ac9329ac4bc9b5#64 := by decide +kernel
  have h01 : t0Entry 0x01#8 = 0x7ad870c830358979#64 := by
    calc t0Entry 0x01#8
        = rev64 ([false, false, false, false, false, false].foldl crcBitStep
            (crcBitStep (crcBitStep 0#64 true) false)) := rfl
      _ = 0x7ad870c830358979#64 := by rw [hfirst, hsecond, hrest, hreverse]
  exact ⟨lutRead_tables_zero, fun x _ hi => getLsbD_rev64 x hi, lutRead_tables_zero_byte 0#3,
    (lutRead_tables_zero _).trans h80, hfirst, hsecond, hrest, hreverse, (lutRead_tables_zero _).trans h01⟩

/-- Settles O14: the recurrence of the entry function, which is FOLD1 with the byte 0. -/
theorem derivedTablesFollowRecurrence : Obligations.DerivedTablesFollowRecurrence := by
  refine ⟨fun k b hk => ⟨lutRead_tables_succ b hk, ?_⟩, lutRead_tables_zero_byte, ?_⟩
  · rw [fold1_zero_byte]
    exact lutRead_tables_succ b hk
  · rw [lutRead_tables]
    decide +kernel

/-- Settles O15: both folds end in the entry function; the eight bytes of table 7 are one FOLD8. -/
theorem tablesAreZeroExtendedFolds : Obligations.TablesAreZeroExtendedFolds := fun k b =>
  ⟨(lutRead_tables k b).trans (update_zeroExtended k b).symm,
   (lutRead_tables k b).trans (foldl_fold1_replicate_zero k.toNat b).symm⟩

end Sys2Proof.Certificates.Slice0
end

section
/-! The two folds (41_fold_datapath.md R75 to R78). What each does on a published machine is said once, as for the commands;
on the built tables a lane whose byte is 0 reads a 0. -/

namespace Sys2Proof.Machine

/-! ## Bytes of a word -/

/-- Byte `j` of the assembled word is the `j`-th byte of the window (R77). -/
theorem byteOf_le64 (d0 d1 d2 d3 d4 d5 d6 d7 : Byte) :
    byteOf 0 (le64 d0 d1 d2 d3 d4 d5 d6 d7) = d0 ∧ byteOf 1 (le64 d0 d1 d2 d3 d4 d5 d6 d7) = d1 ∧
    byteOf 2 (le64 d0 d1 d2 d3 d4 d5 d6 d7) = d2 ∧ byteOf 3 (le64 d0 d1 d2 d3 d4 d5 d6 d7) = d3 ∧
    byteOf 4 (le64 d0 d1 d2 d3 d4 d5 d6 d7) = d4 ∧ byteOf 5 (le64 d0 d1 d2 d3 d4 d5 d6 d7) = d5 ∧
    byteOf 6 (le64 d0 d1 d2 d3 d4 d5 d6 d7) = d6 ∧ byteOf 7 (le64 d0 d1 d2 d3 d4 d5 d6 d7) = d7 := by
  simpa only [leBytes8, List.cons.injEq, and_true] using leBytes8_le64 d0 d1 d2 d3 d4 d5 d6 d7

@[simp] theorem byteOf_zero_word (j : Nat) : byteOf j 0#64 = 0#8 := BitVec.extractLsb'_zero

/-- A byte placed in lane `j` stands in that lane alone. -/
theorem byteOf_lane {i j : Nat} (hi : i < 8) (b : Byte) :
    byteOf i (b.setWidth 64 <<< (8 * j)) = if i = j then b else 0#8 := by
  apply BitVec.eq_of_getLsbD_eq
  intro n hn
  have hpos : 8 * i + n < 64 := by omega
  simp only [byteOf, BitVec.getLsbD_extractLsb', hn, BitVec.getLsbD_shiftLeft, hpos, BitVec.getLsbD_setWidth,
    decide_true, Bool.true_and]
  by_cases hij : i = j
  · subst hij
    have hn' : n < 64 := by omega
    simp [hn']
  · have hout : 8 * i + n < 8 * j ∨ 8 ≤ 8 * i + n - 8 * j := by omega
    rcases hout with hbelow | habove
    · simp [hij, hbelow]
    · simp [hij, BitVec.getLsbD_of_ge b _ habove]

/-! ## The micro-operation words -/

theorem decodeMicro_fold1 (v : Byte) : decodeMicro (mkMicro 1#2 (v.setWidth 64)) = .ok (.fold1 v) := by
  have hhigh : (v.setWidth 64).extractLsb' 8 56 = 0#56 := by
    ext i hi
    simp
  have hlow : (v.setWidth 64).extractLsb' 0 8 = v := by
    rw [BitVec.extractLsb'_setWidth_of_le (by decide), BitVec.extractLsb'_eq_self]
  simp [decodeMicro, hhigh, hlow]

theorem decodeMicro_fold8 (word : Word) : decodeMicro (mkMicro 2#2 word) = .ok (.fold8 word) := by
  simp [decodeMicro]

/-! ## The folds on a published machine -/

variable {s : State}

theorem exec_fold1_of_published (v : Byte) (h : s.tblValid = true) :
    exec (.fold1 v) s = .next (s.setAcc (fold1 s.tbl s.acc v)) := by
  rw [exec, execFold1, whenPublished_open h]

theorem exec_fold8_of_published (word : Word) (h : s.tblValid = true) :
    exec (.fold8 word) s = .next (s.setAcc (fold8 s.tbl s.acc word)) := by
  rw [exec, execFold8, whenPublished_open h]

/-- FOLD1 with the built tables, whose result is known to be `a`. -/
theorem exec_fold1_of_built {v : Byte} {a : Word} (h : s.tblValid = true) (ht : s.tbl = tables)
    (ha : fold1 tables s.acc v = a) : exec (.fold1 v) s = .next (s.setAcc a) := by
  rw [exec_fold1_of_published v h, ht, ha]

/-- FOLD8 with the built tables, whose result is known to be `a`. -/
theorem exec_fold8_of_built {word a : Word} (h : s.tblValid = true) (ht : s.tbl = tables)
    (ha : fold8 tables s.acc word = a) : exec (.fold8 word) s = .next (s.setAcc a) := by
  rw [exec_fold8_of_published word h, ht, ha]

/-! ## Corner cases on the built tables -/

/-- The byte that equals the accumulator's low byte reads entry 0 (R75). -/
theorem fold1_tables_low_byte (a : Word) : fold1 tables a (byteOf 0 a) = a >>> 8 := by
  rw [fold1, BitVec.xor_self, lutRead_tables_zero_byte, BitVec.zero_xor]

/-- The word that equals the accumulator reads entry 0 in every lane (R76). -/
theorem fold8_tables_self (a : Word) : fold8 tables a a = 0#64 := by
  simp [fold8]

/-- A single byte in lane `j` reads its entry of table `7 - j`, and every other lane reads a 0 (R76). -/
theorem fold8_tables_lane {j : Nat} (hj : j < 8) (b : Byte) :
    fold8 tables 0#64 (b.setWidth 64 <<< (8 * j)) = lutRead tables (7#3 - BitVec.ofNat 3 j) b := by
  simp (disch := decide) only [fold8, BitVec.zero_xor, byteOf_lane]
  interval_cases j <;> simp

/-- The worked example of R76 and R84: the first eight digits. -/
theorem fold8_tables_digits : fold8 tables 0#64 0x3837363534333231#64 = 0x49ec20b315e86dc2#64 := by
  simp only [fold8, lutRead_tables]
  decide +kernel

end Sys2Proof.Machine

namespace Sys2Proof.Certificates.Slice0

open Machine

/-- Settles O22: the serialisation of the assembled word is the window. -/
theorem wordAssemblyIsLittleEndian : Obligations.WordAssemblyIsLittleEndian := byteOf_le64

/-- Settles O19: FOLD1 writes `acc` behind an open gate; each corner case is one entry of table 0. -/
theorem foldOneResult : Obligations.FoldOneResult := by
  refine ⟨fun v s h => exec_fold1_of_published v h, decodeMicro_fold1, fun s h ht => ⟨?_, fun ha => ?_, fun ha => ?_⟩⟩
  · exact exec_fold1_of_built h ht (fold1_tables_low_byte s.acc)
  · have hsame : fold1 tables s.acc 0x00#8 = s.acc := by rw [ha, fold1_zero_acc, lutRead_tables_zero_byte]
    exact exec_fold1_of_built h ht hsame
  · have hentry : t0Entry 0x31#8 = 0xfdc17184a9f739fa#64 := by decide +kernel
    have hfold : fold1 tables s.acc 0x31#8 = 0xfdc17184a9f739fa#64 := by
      rw [ha, fold1_zero_acc, lutRead_tables_zero, hentry]
    exact exec_fold1_of_built h ht hfold

/-- Settles O20: FOLD8 writes `acc` behind an open gate; in the corner cases the lanes that do not count read entry 0. -/
theorem foldEightResult : Obligations.FoldEightResult := by
  have hones : fold8 tables 0xffffffffffffffff#64 0#64 = 0xf13c1dc270a84d1a#64 := by
    simp only [fold8, lutRead_tables]
    decide +kernel
  exact ⟨fun word s h => exec_fold8_of_published word h, decodeMicro_fold8,
    fun s h ht => exec_fold8_of_built h ht (fold8_tables_self s.acc), fun _ b hj => fold8_tables_lane hj b, hones,
    fold8_tables_digits⟩

end Sys2Proof.Certificates.Slice0
end

section
/-! The `update` sequencer (41_fold_datapath.md R79, R80). A byte sequence is taken apart as the sequencer does: windows of
eight bytes, then fewer than eight bytes. -/

namespace Sys2Proof

open Machine

/-- The first operation of a list runs, and the others run on the state it leaves (20_memory.md R39). -/
theorem Safety.execAll_cons {i : Instr} {s t : State} (is : List Instr) (h : exec i s = .next t) :
    Safety.execAll (i :: is) s = Safety.execAll is t := by
  rw [Safety.execAll, h]

end Sys2Proof

namespace Sys2Proof.Machine

/-- Induction along the sequencer's loops (R79): a claim holds of all byte sequences if it holds of those too short for a
FOLD8, and an eight-byte window in front keeps it. -/
theorem windowInduction {P : List Byte → Prop} (short : ∀ data : List Byte, data.length < 8 → P data)
    (window : ∀ d0 d1 d2 d3 d4 d5 d6 d7 rest, P rest → P (d0 :: d1 :: d2 :: d3 :: d4 :: d5 :: d6 :: d7 :: rest)) :
    ∀ data, P data
  | d0 :: d1 :: d2 :: d3 :: d4 :: d5 :: d6 :: d7 :: rest =>
    window d0 d1 d2 d3 d4 d5 d6 d7 rest (windowInduction short window rest)
  | [] | [_] | [_, _] | [_, _, _] | [_, _, _, _] | [_, _, _, _, _] | [_, _, _, _, _, _] | [_, _, _, _, _, _, _] =>
    short _ (by simp)

/-! ## The micro-operations of a sequence -/

/-- The operands of the FOLD8s that `update` issues for a byte sequence, in order (R77, R79). -/
def foldWords : List Byte → List Word
  | d0 :: d1 :: d2 :: d3 :: d4 :: d5 :: d6 :: d7 :: rest => le64 d0 d1 d2 d3 d4 d5 d6 d7 :: foldWords rest
  | _ => []

theorem foldWords_of_length_lt {data : List Byte} (h : data.length < 8) : foldWords data = [] := by
  unfold foldWords
  split
  · simp only [List.length_cons] at h
    omega
  · rfl

/-- With fewer than eight bytes left, the sequencer issues FOLD1s only (R79). -/
theorem microOps_of_length_lt {data : List Byte} (h : data.length < 8) : microOps data = data.map .fold1 := by
  induction data with
  | nil => rfl
  | cons v rest ih =>
    rw [List.length_cons] at h
    rw [microOps, ih (by omega), List.map_cons]
    rintro d1 d2 d3 d4 d5 d6 d7 l rfl
    simp only [List.length_cons] at h
    omega

/-- A window in front is one FOLD8 more. -/
theorem window_length_div (d0 d1 d2 d3 d4 d5 d6 d7 : Byte) (rest : List Byte) :
    (d0 :: d1 :: d2 :: d3 :: d4 :: d5 :: d6 :: d7 :: rest).length / 8 = rest.length / 8 + 1 := by
  simp only [List.length_cons]
  omega

theorem foldWords_length (data : List Byte) : (foldWords data).length = data.length / 8 := by
  induction data using windowInduction with
  | short data h => rw [foldWords_of_length_lt h, List.length_nil, Nat.div_eq_of_lt h]
  | window d0 d1 d2 d3 d4 d5 d6 d7 rest ih =>
    rw [foldWords, List.length_cons, ih, window_length_div]

/-- The FOLD8s, then a FOLD1 for each byte that no FOLD8 took (R79). -/
theorem microOps_eq (data : List Byte) :
    microOps data = (foldWords data).map .fold8 ++ (data.drop (8 * (data.length / 8))).map .fold1 := by
  induction data using windowInduction with
  | short data h =>
    rw [microOps_of_length_lt h, foldWords_of_length_lt h, Nat.div_eq_of_lt h, List.map_nil, List.nil_append, Nat.mul_zero,
      List.drop_zero]
  | window d0 d1 d2 d3 d4 d5 d6 d7 rest ih =>
    rw [microOps, ih, foldWords, List.map_cons, List.cons_append, window_length_div, Nat.mul_succ]
    rfl

/-- The word of FOLD8 number `n` holds the eight bytes from position `8 * n` on, least significant first (R77). -/
theorem byteOf_foldWords (data : List Byte) :
    ∀ n word, (foldWords data)[n]? = some word → ∀ j, j < 8 → data[8 * n + j]? = some (byteOf j word) := by
  induction data using windowInduction with
  | short data h =>
    intro n word hword
    simp [foldWords_of_length_lt h] at hword
  | window d0 d1 d2 d3 d4 d5 d6 d7 rest ih =>
    intro n word hword j hj
    cases n with
    | zero =>
      obtain rfl : le64 d0 d1 d2 d3 d4 d5 d6 d7 = word := by simpa [foldWords] using hword
      have hbytes := byteOf_le64 d0 d1 d2 d3 d4 d5 d6 d7
      interval_cases j <;> simp [hbytes]
    | succ n =>
      have hrest : (foldWords rest)[n]? = some word := by simpa [foldWords] using hword
      have hpos : 8 * (n + 1) + j = 8 * n + j + 8 := by omega
      rw [hpos]
      exact ih n word hrest j hj

/-! ## Performing them -/

/-- The micro-operations of a sequence, one after another, write `update` of it into `acc`, and nothing else (R79). -/
theorem execAll_microOps (data : List Byte) (s : State) (h : s.tblValid = true) :
    Safety.execAll (microOps data) s = .next (s.setAcc (update s.tbl s.acc data)) := by
  fun_induction microOps data generalizing s with
  | case1 d0 d1 d2 d3 d4 d5 d6 d7 rest ih =>
    rw [Safety.execAll_cons _ (exec_fold8_of_published _ h), update]
    exact ih _ h
  | case2 v rest hshort ih =>
    rw [Safety.execAll_cons _ (exec_fold1_of_published v h), update]
    · exact ih _ h
    · exact hshort
  | case3 => rfl

end Sys2Proof.Machine

namespace Sys2Proof.Certificates.Slice0

open Machine

/-- Settles O23, with `foldWords` as the operands of the FOLD8s. -/
theorem updateIsItsMicroOperations : Obligations.UpdateIsItsMicroOperations :=
  ⟨fun data => ⟨foldWords data, foldWords_length data, microOps_eq data, byteOf_foldWords data⟩,
   fun s data h => execAll_microOps data s h⟩

/-- Settles O24: neither loop of `update` runs, so CHECKSUM answers its seed. -/
theorem emptyInputChangesNothing : Obligations.EmptyInputChangesNothing :=
  have hempty : ∀ (t : TableSet) (a : Word), update t a [] = a := fun _ _ => by rw [update]
  ⟨hempty, fun value s h => by rw [exec_checksum_of_published value [] h, hempty, State.respond]⟩

end Sys2Proof.Certificates.Slice0
end

section
/-! Slice-by-8 equals byte-at-a-time (41_fold_datapath.md R82, R83). Write `F` for FOLD1 with the byte 0. XORing the eight
bytes of a word into the accumulator one by one and folding after each is to XOR in the whole word and to apply `F` eight
times. On the built tables `F` is linear, so the eight applications act on each byte of the word on its own, and byte `j`
passes through `8 - j` of them: that is its entry of table `7 - j`, which is what lane `j` of FOLD8 reads. -/

namespace Sys2Proof.Machine

/-! ## Folding the bytes of a word one by one -/

/-- FOLD1 with the byte 0: the step of the accumulator alone. -/
def zeroFold (t : TableSet) (a : Word) : Word := fold1 t a 0#8

theorem byteOf_xor (j : Nat) (x y : Word) : byteOf j (x ^^^ y) = byteOf j x ^^^ byteOf j y := BitVec.extractLsb'_xor

theorem byteOf_zero_ushiftRight (j : Nat) (x : Word) : byteOf 0 (x >>> (8 * j)) = byteOf j x := by
  ext i hi
  simp [byteOf]

/-- A word may be XORed in whole before the step, or its low byte in the step and the rest of it after. -/
theorem zeroFold_xor_word (t : TableSet) (a w : Word) :
    zeroFold t (a ^^^ w) = fold1 t a (byteOf 0 w) ^^^ w >>> 8 := by
  rw [zeroFold, fold1_zero_byte, fold1, byteOf_xor, BitVec.ushiftRight_xor_distrib, BitVec.xor_assoc]

/-- After the low `k` bytes of `w`, XORing in what is left of `w` gives `k` steps on `a` XORed with `w`. -/
theorem foldl_fold1_bytes (t : TableSet) (a w : Word) (k : Nat) :
    ((List.range k).map fun j => byteOf j w).foldl (fold1 t) a ^^^ w >>> (8 * k) = (zeroFold t)^[k] (a ^^^ w) := by
  induction k with
  | zero => simp
  | succ k ih =>
    rw [Function.iterate_succ_apply', ← ih, zeroFold_xor_word, byteOf_zero_ushiftRight, ← BitVec.shiftRight_add,
      List.range_succ, List.map_append, List.foldl_append, List.map_singleton, List.foldl_cons, List.foldl_nil,
      Nat.mul_succ]

/-- Folding the eight bytes of a word is eight steps on the accumulator XORed with the word. -/
theorem foldl_fold1_leBytes8 (t : TableSet) (a w : Word) :
    (leBytes8 w).foldl (fold1 t) a = (zeroFold t)^[8] (a ^^^ w) := by
  have hgone : w >>> (8 * 8) = 0#64 := BitVec.ushiftRight_eq_zero (by decide)
  rw [← foldl_fold1_bytes, hgone, BitVec.xor_zero]
  rfl

/-! ## The steps on the built tables -/

theorem zeroFold_tables_xor (x y : Word) : zeroFold tables (x ^^^ y) = zeroFold tables x ^^^ zeroFold tables y := by
  simp only [zeroFold, fold1_zero_byte, lutRead_tables_zero, byteOf_xor, t0Entry_xor, BitVec.ushiftRight_xor_distrib]
  ac_rfl

theorem zeroFold_tables_iterate_xor (k : Nat) (x y : Word) :
    (zeroFold tables)^[k] (x ^^^ y) = (zeroFold tables)^[k] x ^^^ (zeroFold tables)^[k] y := by
  induction k with
  | zero => rfl
  | succ k ih => simp only [Function.iterate_succ_apply', ih, zeroFold_tables_xor]

/-- `k` steps lead from an entry of table 0 to the entry of table `k` (R65). -/
theorem zeroFold_tables_iterate_t0Entry (k : Nat) (b : Byte) : (zeroFold tables)^[k] (t0Entry b) = tableEntry k b := by
  induction k with
  | zero => rfl
  | succ k ih => rw [Function.iterate_succ_apply', ih, zeroFold, fold1_tableEntry]

/-- `k + 1` steps take the low byte to its entry of table `k`, and the bytes above it through `k` steps, one place down. -/
theorem zeroFold_tables_iterate_succ (k : Nat) (x : Word) :
    (zeroFold tables)^[k + 1] x = tableEntry k (byteOf 0 x) ^^^ (zeroFold tables)^[k] (x >>> 8) := by
  rw [Function.iterate_succ_apply, zeroFold, fold1_zero_byte, lutRead_tables_zero, zeroFold_tables_iterate_xor,
    zeroFold_tables_iterate_t0Entry]

/-- The same for the bytes from `j` on, which is how the lanes of FOLD8 number them. -/
theorem zeroFold_tables_iterate_lane (k j : Nat) (x : Word) :
    (zeroFold tables)^[k + 1] (x >>> (8 * j)) =
      tableEntry k (byteOf j x) ^^^ (zeroFold tables)^[k] (x >>> (8 * (j + 1))) := by
  rw [zeroFold_tables_iterate_succ, byteOf_zero_ushiftRight, ← BitVec.shiftRight_add, Nat.mul_succ]

/-- FOLD8 is eight steps on the accumulator XORed with the word. -/
theorem fold8_tables_eq_iterate (a w : Word) : fold8 tables a w = (zeroFold tables)^[8] (a ^^^ w) := by
  have hlane (k j : Nat) := zeroFold_tables_iterate_lane k j (a ^^^ w)
  have hgone : (a ^^^ w) >>> (8 * (7 + 1)) = 0#64 := BitVec.ushiftRight_eq_zero (by decide)
  symm
  calc (zeroFold tables)^[8] (a ^^^ w)
      = (zeroFold tables)^[7 + 1] ((a ^^^ w) >>> (8 * 0)) := by rw [Nat.mul_zero, BitVec.ushiftRight_zero]
    _ = fold8 tables a w := by
      rw [hlane 7 0, hlane 6 1, hlane 5 2, hlane 4 3, hlane 3 4, hlane 2 5, hlane 1 6, hlane 0 7, hgone]
      simp [fold8, lutRead_tables, BitVec.xor_assoc]

/-! ## `update` is the left fold of FOLD1 -/

theorem fold8_tables_le64 (a : Word) (d0 d1 d2 d3 d4 d5 d6 d7 : Byte) :
    fold8 tables a (le64 d0 d1 d2 d3 d4 d5 d6 d7) = [d0, d1, d2, d3, d4, d5, d6, d7].foldl (fold1 tables) a := by
  rw [← leBytes8_le64, foldl_fold1_leBytes8, fold8_tables_eq_iterate]

theorem update_tables_eq_foldl (a : Word) (data : List Byte) : update tables a data = data.foldl (fold1 tables) a := by
  induction data using windowInduction generalizing a with
  | short data h => exact update_of_length_lt tables data h a
  | window d0 d1 d2 d3 d4 d5 d6 d7 rest ih =>
    rw [update, ih, fold8_tables_le64]
    rfl

theorem update_tables_append (a : Word) (A B : List Byte) :
    update tables (update tables a A) B = update tables a (A ++ B) := by
  simp only [update_tables_eq_foldl, List.foldl_append]

/-- WRITEs of pieces, one after another, fold the whole sequence (R82, R83). -/
theorem execAll_writes (pieces : List (List Byte)) (s : State) (h : s.tblValid = true) (ht : s.tbl = tables) :
    Safety.execAll (pieces.map .write) s = .next { s with
      acc := update tables s.acc pieces.flatten, responses := s.responses ++ pieces.map fun p => .count p.length } := by
  induction pieces generalizing s with
  | nil => simp [Safety.execAll, update]
  | cons p pieces ih =>
    have hrest := ih ((s.setAcc (update s.tbl s.acc p)).respond (.count p.length)) h ht
    rw [List.map_cons, Safety.execAll_cons _ (exec_write_of_published p h), hrest]
    simp [ht, update_tables_append]

end Sys2Proof.Machine

namespace Sys2Proof.Certificates.Slice0

open Machine

/-- Settles O25: `update` is a left fold over the bytes. -/
theorem incrementalConsistency : Obligations.IncrementalConsistency := update_tables_append

/-- Settles O26: FOLD8 and eight FOLD1s are the same eight steps; the rest is induction on the windows and the pieces. -/
theorem sliceByEightEqualsByteAtATime : Obligations.SliceByEightEqualsByteAtATime :=
  ⟨fold8_tables_le64, update_tables_eq_foldl, fun s pieces h ht => execAll_writes pieces s h ht⟩

/-- Settles O27: the nine digits are one FOLD8 and one FOLD1. -/
theorem knownAnswer : Obligations.KnownAnswer := by
  have hlast : fold1 tables 0x49ec20b315e86dc2#64 0x39#8 = 0xe9c6d914c4b8d9ca#64 := by
    rw [fold1, lutRead_tables_zero]
    decide +kernel
  refine ⟨fold8_tables_digits, hlast, fun s h ht => ?_⟩
  have hword : le64 0x31#8 0x32#8 0x33#8 0x34#8 0x35#8 0x36#8 0x37#8 0x38#8 = 0x3837363534333231#64 := by decide
  rw [exec_checksum_of_published _ _ h, ht, update, hword, fold8_tables_digits, update_of_length_lt _ _ (by decide),
    List.foldl_cons, List.foldl_nil, hlast, State.respond, ht]

end Sys2Proof.Certificates.Slice0
end

section
/-! The accumulator commands (42_accumulator_commands.md R87 to R94). The lemmas `exec_*_of_published` say what each command
does; here stand the short command sequences that the rules name, and the laws of `update` and of the bytes of a word that
their corner cases rest on. -/

namespace Sys2Proof

open Machine

theorem Safety.execAll_singleton (i : Instr) (s : State) : Safety.execAll [i] s = exec i s := by
  rw [Safety.execAll]
  cases exec i s <;> rfl

/-- Of two operations the second runs on the state that the first leaves (20_memory.md R39). -/
theorem Safety.execAll_pair {i j : Instr} {s t : State} (h : exec i s = .next t) :
    Safety.execAll [i, j] s = exec j t := by
  rw [Safety.execAll_cons [j] h, Safety.execAll_singleton]

end Sys2Proof

namespace Sys2Proof.Machine

variable {s : State}

/-- WRITE with the built tables, whose fold is known to be `a`. -/
theorem exec_write_of_built {data : List Byte} {a : Word} (h : s.tblValid = true) (ht : s.tbl = tables)
    (ha : update tables s.acc data = a) :
    exec (.write data) s = .next ((s.setAcc a).respond (.count data.length)) := by
  rw [exec_write_of_published data h, ht, ha]

/-! ## Sequences of two commands -/

/-- Two responses are delivered in issue order (R46, R117). -/
theorem State.respond_respond (s : State) (r r' : Response) :
    (s.respond r).respond r' = { s with responses := s.responses ++ [r, r'] } := by
  simp [State.respond]

/-- SUM64 directly after RESET answers 0, whatever was written before (R87, R90). -/
theorem execAll_reset_sum64 (h : s.tblValid = true) :
    Safety.execAll [.reset, .sum64] s =
      .next { s with acc := 0#64, responses := s.responses ++ [.done, .word 0#64] } := by
  have hsum : exec .sum64 ((s.setAcc 0#64).respond .done) =
      .next (((s.setAcc 0#64).respond .done).respond (.word 0#64)) := exec_sum64_of_published h
  rw [Safety.execAll_pair (exec_reset_of_published h), hsum, State.respond_respond, State.setAcc]

/-- A WRITE after an answer that left the rest of the machine alone does what it would have done without it (R90, R91). -/
theorem exec_write_respond (r : Response) (data : List Byte) (h : s.tblValid = true) :
    exec (.write data) (s.respond r) = .next { s with
      acc := update s.tbl s.acc data, responses := s.responses ++ [r, .count data.length] } := by
  have hwrite : exec (.write data) (s.respond r) =
      .next (((s.setAcc (update s.tbl s.acc data)).respond r).respond (.count data.length)) :=
    exec_write_of_published data h
  rw [hwrite, State.respond_respond, State.setAcc]

/-! ## Laws of `update` -/

theorem update_nil (t : TableSet) (a : Word) : update t a [] = a := by rw [update]

/-- FOLD1 of a zero byte on a zero accumulator reads entry 0 of table 0. -/
theorem fold1_tables_zero : fold1 tables 0#64 0#8 = 0#64 := by rw [fold1_zero_acc, lutRead_tables_zero_byte]

/-- Leading zero bytes cannot be told from a zero accumulator (R89). -/
theorem update_tables_replicate_zero (n : Nat) : update tables 0#64 (List.replicate n 0#8) = 0#64 := by
  rw [update_tables_eq_foldl]
  induction n with
  | zero => rfl
  | succ n ih => rw [List.replicate_succ, List.foldl_cons, fold1_tables_zero, ih]

/-- The bytes that the FOLD8s leave to the FOLD1s (R79). -/
theorem length_drop_windows (data : List Byte) : (data.drop (8 * (data.length / 8))).length = data.length % 8 := by
  rw [List.length_drop]
  omega

/-! ## The bytes of a word -/

/-- Assembling the eight bytes of a word gives the word back (R10, R91): each step joins a byte to the bytes below it. -/
theorem le64_byteOf (x : Word) :
    le64 (byteOf 0 x) (byteOf 1 x) (byteOf 2 x) (byteOf 3 x) (byteOf 4 x) (byteOf 5 x) (byteOf 6 x) (byteOf 7 x) = x := by
  simp (disch := decide) only [le64, byteOf, BitVec.extractLsb'_append_extractLsb'_eq_extractLsb']
  exact BitVec.extractLsb'_eq_self

end Sys2Proof.Machine

namespace Sys2Proof.Certificates.Slice0

open Machine

/-- The checksum of `"123456789"` from 0 (R84, R89, R94): the FOLD8 and the FOLD1 of the known answer. -/
theorem update_tables_digits :
    update tables 0#64 [0x31#8, 0x32#8, 0x33#8, 0x34#8, 0x35#8, 0x36#8, 0x37#8, 0x38#8, 0x39#8] =
      0xe9c6d914c4b8d9ca#64 := by
  obtain ⟨hfirst, hlast, -⟩ := knownAnswer
  have hword : le64 0x31#8 0x32#8 0x33#8 0x34#8 0x35#8 0x36#8 0x37#8 0x38#8 = 0x3837363534333231#64 := by decide
  rw [update, hword, hfirst, update_of_length_lt _ _ (by decide), List.foldl_cons, List.foldl_nil, hlast]

/-- Settles O29: SEED 0 and RESET are the same update of the state; WRITE then folds `B` into the seed, which holds `A`. -/
theorem seedCommandResult : Obligations.SeedCommandResult := by
  refine ⟨fun value => ?_, fun value s h => exec_seed_of_published value h, fun s => rfl, fun value A B s h ht => ?_⟩
  · rw [decodeCommand_of_op_one [] (headerOp_mkHeader 1#3 value), headerArg_mkHeader]
  · have hwrite := exec_write_of_built (s := (s.setAcc (update tables value A)).respond .done) h ht
      (update_tables_append value A B)
    exact ⟨_, (Safety.execAll_pair (exec_seed_of_published _ h)).trans hwrite, rfl⟩

/-- Settles O30: the corner cases are those of `update`; the micro-operations are counted by the FOLD8 words and by the bytes
left. -/
theorem writeCommandResult : Obligations.WriteCommandResult := by
  refine ⟨fun arg data => decodeCommand_of_op_two data (headerOp_mkHeader 2#3 arg),
    fun data s h => exec_write_of_published data h, fun s h => ?empty, fun A B s h ht => ?two,
    fun data => ⟨foldWords data, data.drop (8 * (data.length / 8)), microOps_eq data, foldWords_length data,
      length_drop_windows data⟩,
    update_tables_replicate_zero, fun s h ht ha => ?digits⟩
  case empty =>
    rw [exec_write_of_published [] h, update_nil]
    rfl
  case two => simpa using execAll_writes [A, B] s h ht
  case digits => exact exec_write_of_built h ht (by rw [ha]; exact update_tables_digits)

/-- Settles O32: SUM ends in one `respond`, so a WRITE may follow. -/
theorem sumCommandResult : Obligations.SumCommandResult :=
  ⟨fun arg pre => decodeCommand_of_op_four pre (headerOp_mkHeader 4#3 arg),
   fun pre _ h => exec_sum_of_published pre h,
   fun pre data _ h =>
    ⟨_, (Safety.execAll_pair (exec_sum_of_published pre h)).trans (exec_write_respond _ data h), rfl⟩,
   le64_byteOf⟩

/-- Settles O35: CHECKSUM ends in one `respond`; chaining is the composition of `update` on the built tables. -/
theorem checksumCommandResult : Obligations.ChecksumCommandResult := by
  refine ⟨fun value data => ?_, fun value data s h => exec_checksum_of_published value data h, update_nil,
    fun value A B s h ht => ?_, update_tables_digits⟩
  · rw [decodeCommand_of_op_seven data (headerOp_mkHeader 7#3 value), headerArg_mkHeader]
  · rw [exec_checksum_of_published _ _ h, exec_checksum_of_published _ _ h, ht, update_tables_append]

/-- Settles O28: RESET writes 0 into `acc`, which is what SUM64 then reads. -/
theorem resetCommandResult : Obligations.ResetCommandResult :=
  ⟨fun arg => decodeCommand_of_op_zero [] (headerOp_mkHeader 0#3 arg),
   fun _ h => ⟨exec_reset_of_published h, execAll_reset_sum64 h⟩⟩

/-- Settles O31: SUM64 ends in one `respond`, so a WRITE may follow. -/
theorem sum64CommandResult : Obligations.Sum64CommandResult :=
  ⟨fun arg => decodeCommand_of_op_three [] (headerOp_mkHeader 3#3 arg),
   fun _ h => exec_sum64_of_published h,
   fun _ h => execAll_reset_sum64 h,
   fun _ data h => (Safety.execAll_pair (exec_sum64_of_published h)).trans (exec_write_respond _ data h)⟩

/-- Settles O33: BLOCK_SIZE ends in one `respond` of the constant. -/
theorem blockSizeCommandResult : Obligations.BlockSizeCommandResult :=
  ⟨fun arg => decodeCommand_of_op_five [] (headerOp_mkHeader 5#3 arg), fun _ h => exec_blockSize_of_published h⟩

/-- Settles O34: how much SUM appends is part of the answer that it owes. -/
theorem sizeCommandResult : Obligations.SizeCommandResult := by
  refine ⟨fun arg => decodeCommand_of_op_six [] (headerOp_mkHeader 6#3 arg), fun s h => exec_size_of_published h,
    fun pre s h => ?_⟩
  obtain ⟨t, _, hexec, hresponses, bs, rfl, hlength⟩ := oneResponseOfTheRightKind (.sum pre) s h rfl
  exact ⟨t, bs, hexec, hresponses, hlength⟩

end Sys2Proof.Certificates.Slice0
end

section
/-! The two encodings (30_encoding.md R43 to R50). The micro-operation map is said once for each code, as the command map
is for each opcode; a word that decodes is then one of three. -/

namespace Sys2Proof

/-! ## Commands -/

theorem commandOp_cases : ∀ op : BitVec 3,
    op = 0#3 ∨ op = 1#3 ∨ op = 2#3 ∨ op = 3#3 ∨ op = 4#3 ∨ op = 5#3 ∨ op = 6#3 ∨ op = 7#3 := by decide

/-- Every header is a command, and commands are the host's (R43, R50). -/
@[simp] theorem decodeCommand_issuer (hdr : Header) (payload : List Byte) :
    (decodeCommand hdr payload).issuer = .host := by
  unfold decodeCommand
  split <;> rfl

/-- A payload on a command that carries none is empty (R45). -/
theorem payload_nil_of_duty {hdr : Header} {payload : List Byte} {op : BitVec 3}
    (hduty : Safety.payloadDuty hdr payload = true) (h : headerOp hdr = op) (hop : op ≠ 2#3 ∧ op ≠ 4#3 ∧ op ≠ 7#3) :
    payload = [] := by
  simpa [Safety.payloadDuty, h, hop] using hduty

/-! ## Micro-operations -/

variable {u : MicroWord}

/-- The mask `0x3` leaves the code, with zeros above it (R49). -/
theorem micro_and_mask (u : MicroWord) : u &&& 3#66 = (microUop u).setWidth 66 := by
  apply BitVec.eq_of_toNat_eq
  have hmask : u.toNat &&& 3 = u.toNat % 4 := Nat.and_two_pow_sub_one_eq_mod u.toNat 2
  have hlow : u.toNat % 4 < 2 ^ 66 := by omega
  simpa [microUop, hmask] using (Nat.mod_eq_of_lt hlow).symm

/-- A word whose masked bits are `uop` has the code `uop`. -/
theorem microUop_of_match (uop : BitVec 2) (h : u &&& 3#66 = uop.setWidth 66) : microUop u = uop := by
  rw [micro_and_mask] at h
  simpa using congrArg (BitVec.setWidth 2) h

/-- A field of the operand, by its place in the word: the operand starts at bit 2 (R49). -/
theorem microOpnd_extract (u : MicroWord) {start len : Nat} (h : start + len ≤ 64) :
    (microOpnd u).extractLsb' start len = u.extractLsb' (2 + start) len := by
  ext i hi
  simp [microOpnd, show start + i < 64 by omega, Nat.add_assoc]

theorem decodeMicro_of_uop_zero (h : microUop u = 0#2) : decodeMicro u = .ok .build := by
  rw [decodeMicro, h]; rfl

theorem decodeMicro_of_uop_one (h : microUop u = 1#2) (hhigh : (microOpnd u).extractLsb' 8 56 = 0#56) :
    decodeMicro u = .ok (.fold1 ((microOpnd u).extractLsb' 0 8)) := by
  rw [decodeMicro, h]; exact if_pos hhigh

theorem decodeMicro_of_uop_one_high (h : microUop u = 1#2) (hhigh : (microOpnd u).extractLsb' 8 56 ≠ 0#56) :
    decodeMicro u = .error .fold1OperandHigh := by
  rw [decodeMicro, h]; exact if_neg hhigh

theorem decodeMicro_of_uop_two (h : microUop u = 2#2) : decodeMicro u = .ok (.fold8 (microOpnd u)) := by
  rw [decodeMicro, h]; rfl

theorem decodeMicro_of_uop_three (h : microUop u = 3#2) : decodeMicro u = .error .uopNeverGenerated := by
  rw [decodeMicro, h]; rfl

theorem microCode_cases : ∀ uop : BitVec 2, uop = 0#2 ∨ uop = 1#2 ∨ uop = 2#2 ∨ uop = 3#2 := by decide

/-- The three words that decode, and the operation of each (R49). -/
theorem decodeMicro_ok {i : Instr} (h : decodeMicro u = .ok i) :
    (microUop u = 0#2 ∧ i = .build) ∨
    (microUop u = 1#2 ∧ (microOpnd u).extractLsb' 8 56 = 0#56 ∧ i = .fold1 ((microOpnd u).extractLsb' 0 8)) ∨
    (microUop u = 2#2 ∧ i = .fold8 (microOpnd u)) := by
  rcases microCode_cases (microUop u) with hu | hu | hu | hu
  · rw [decodeMicro_of_uop_zero hu] at h
    exact .inl ⟨hu, (Except.ok.inj h).symm⟩
  · by_cases hhigh : (microOpnd u).extractLsb' 8 56 = 0#56
    · rw [decodeMicro_of_uop_one hu hhigh] at h
      exact .inr (.inl ⟨hu, hhigh, (Except.ok.inj h).symm⟩)
    · rw [decodeMicro_of_uop_one_high hu hhigh] at h
      cases h
  · rw [decodeMicro_of_uop_two hu] at h
    exact .inr (.inr ⟨hu, (Except.ok.inj h).symm⟩)
  · rw [decodeMicro_of_uop_three hu] at h
    cases h

/-- Micro-operations are the sequencers' (R43). -/
theorem decodeMicro_issuer {i : Instr} (h : decodeMicro u = .ok i) : i.issuer = .sequencer := by
  rcases decodeMicro_ok h with ⟨-, rfl⟩ | ⟨-, -, rfl⟩ | ⟨-, rfl⟩ <;> rfl

/-- An operand whose bits above the byte are 0 is the byte, widened (R49). -/
theorem setWidth_low_byte {x : Word} (h : x.extractLsb' 8 56 = 0#56) : (x.extractLsb' 0 8).setWidth 64 = x := by
  have hhigh : x.toNat / 256 % 2 ^ 56 = 0 := by simpa [Nat.shiftRight_eq_div_pow] using congrArg BitVec.toNat h
  apply BitVec.eq_of_toNat_eq
  simp only [BitVec.toNat_setWidth, BitVec.extractLsb'_toNat, Nat.shiftRight_zero]
  omega

/-! ## Encoding what was decoded -/

/-- Encoding a decoded header (R44, R45, R47): the opcode picks the case, and a command without a payload had none. -/
theorem encode_decodeCommand (hdr : Header) (payload : List Byte) (hduty : Safety.payloadDuty hdr payload = true) :
    encode (decodeCommand hdr payload) = .command
      (mkHeader (headerOp hdr) (if headerOp hdr = 1#3 ∨ headerOp hdr = 7#3 then headerArg hdr else 0#64)) payload := by
  have hnil {op : BitVec 3} := payload_nil_of_duty (op := op) hduty
  rcases commandOp_cases (headerOp hdr) with h | h | h | h | h | h | h | h
  · rw [decodeCommand_of_op_zero payload h, h, hnil h (by decide)]; rfl
  · rw [decodeCommand_of_op_one payload h, h, hnil h (by decide)]; rfl
  · rw [decodeCommand_of_op_two payload h, h]; rfl
  · rw [decodeCommand_of_op_three payload h, h, hnil h (by decide)]; rfl
  · rw [decodeCommand_of_op_four payload h, h]; rfl
  · rw [decodeCommand_of_op_five payload h, h, hnil h (by decide)]; rfl
  · rw [decodeCommand_of_op_six payload h, h, hnil h (by decide)]; rfl
  · rw [decodeCommand_of_op_seven payload h, h]; rfl

/-- Encoding a decoded micro-operation word (R49): a word is its two fields. -/
theorem encode_of_decodeMicro {u : MicroWord} {i : Instr} (h : decodeMicro u = .ok i) :
    encode i = .micro (if microUop u = 0#2 then buildWord else u) := by
  rcases decodeMicro_ok h with ⟨hu, rfl⟩ | ⟨hu, hhigh, rfl⟩ | ⟨hu, rfl⟩
  · rw [if_pos hu]; rfl
  · rw [if_neg (by simp [hu]), encode, setWidth_low_byte hhigh, ← hu, mkMicro_fields]
  · rw [if_neg (by simp [hu]), encode, ← hu, mkMicro_fields]

end Sys2Proof

namespace Sys2Proof.Certificates.Slice0

open Machine (decodeMicro_fold1 decodeMicro_fold8)

/-- Settles O6, operation by operation: the fields of an assembled word are the ones it was assembled from. -/
theorem decodeEncodeAgree : Obligations.DecodeEncodeAgree := by
  intro i
  have hcommand {hdr : Header} {payload : List Byte} {j : Instr} (h : decodeCommand hdr payload = j) :
      decode (.command hdr payload) = .ok j := congrArg Except.ok h
  cases i with
  | reset => exact hcommand (decodeCommand_of_op_zero [] (headerOp_mkHeader 0#3 _))
  | seed value =>
    refine hcommand ?_
    rw [decodeCommand_of_op_one [] (headerOp_mkHeader 1#3 value), headerArg_mkHeader]
  | write data => exact hcommand (decodeCommand_of_op_two data (headerOp_mkHeader 2#3 _))
  | sum64 => exact hcommand (decodeCommand_of_op_three [] (headerOp_mkHeader 3#3 _))
  | sum pre => exact hcommand (decodeCommand_of_op_four pre (headerOp_mkHeader 4#3 _))
  | blockSize => exact hcommand (decodeCommand_of_op_five [] (headerOp_mkHeader 5#3 _))
  | size => exact hcommand (decodeCommand_of_op_six [] (headerOp_mkHeader 6#3 _))
  | checksum value data =>
    refine hcommand ?_
    rw [decodeCommand_of_op_seven data (headerOp_mkHeader 7#3 value), headerArg_mkHeader]
  | build => exact decodeMicro_of_uop_zero (microUop_mkMicro 0#2 0#64)
  | fold1 v => exact decodeMicro_fold1 v
  | fold8 word => exact decodeMicro_fold8 word

/-- Settles O8: the masked bits are the code, and a field of the operand stands two bits further up in the word. -/
theorem microOpcodeMap : Obligations.MicroOpcodeMap := by
  intro u
  have hhigh : (microOpnd u).extractLsb' 8 56 = u.extractLsb' 10 56 := microOpnd_extract u (by decide)
  have hlow : (microOpnd u).extractLsb' 0 8 = u.extractLsb' 2 8 := microOpnd_extract u (by decide)
  refine ⟨fun h => decodeMicro_of_uop_zero (microUop_of_match 0#2 h), fun h hz => ?_,
    fun h => decodeMicro_of_uop_two (microUop_of_match 2#2 h), fun h hz => ?_,
    fun h => decodeMicro_of_uop_three (microUop_of_match 3#2 h)⟩
  · rw [decodeMicro_of_uop_one (microUop_of_match 1#2 h) (hhigh.trans hz), hlow]
  · exact decodeMicro_of_uop_one_high (microUop_of_match 1#2 h) (by rwa [hhigh])

/-- Settles O9, one format at a time. -/
theorem decodedWordReencodes : Obligations.DecodedWordReencodes :=
  ⟨encode_decodeCommand, fun _ _ h => encode_of_decodeMicro h⟩

/-- Settles O10: the issuer of whatever a word decodes to. -/
theorem eachInterfaceIssuesItsOwn : Obligations.EachInterfaceIssuesItsOwn :=
  ⟨fun hdr payload => beq_iff_eq.mpr (decodeCommand_issuer hdr payload),
   fun _ _ h => beq_iff_eq.mpr (decodeMicro_issuer h)⟩

/-- Settles O5: closed words, decoded by evaluation. -/
theorem sampleWordsDecode : Obligations.SampleWordsDecode := by
  unfold Obligations.SampleWordsDecode
  decide

end Sys2Proof.Certificates.Slice0
end

section
/-! What one operation can do, said once (10_state.md R12; 20_memory.md R39). On a published machine it writes one value into
the accumulator and adds at most one response, both given by the tables and the accumulator alone; before publication BUILD
publishes and everything else is held. -/

namespace Sys2Proof.Machine

/-! ## On a published machine -/

/-- What `i` leaves in an accumulator that held `a`, with the tables `t` published (R60, R75, R76, R87 to R94). -/
def nextAcc (t : TableSet) (a : Word) : Instr → Word
  | .reset => 0#64
  | .seed value => value
  | .write data => update t a data
  | .fold1 v => fold1 t a v
  | .fold8 word => fold8 t a word
  | .sum64 | .sum _ | .blockSize | .size | .checksum _ _ | .build => a

/-- What `i` answers on an accumulator that holds `a`, with the tables `t` published (R46). -/
def answers (t : TableSet) (a : Word) : Instr → List Response
  | .reset | .seed _ => [.done]
  | .write data => [.count data.length]
  | .sum64 => [.word a]
  | .sum pre => [.bytes (pre ++ leBytes8 a)]
  | .blockSize => [.count 1]
  | .size => [.count 8]
  | .checksum value data => [.word (update t value data)]
  | .build | .fold1 _ | .fold8 _ => []

/-- The published machine `s` after `i`. -/
def State.perform (s : State) (i : Instr) : State :=
  { s with acc := nextAcc s.tbl s.acc i, responses := s.responses ++ answers s.tbl s.acc i }

@[simp] theorem State.perform_acc (s : State) (i : Instr) : (s.perform i).acc = nextAcc s.tbl s.acc i := rfl
@[simp] theorem State.perform_tbl (s : State) (i : Instr) : (s.perform i).tbl = s.tbl := rfl
@[simp] theorem State.perform_tblValid (s : State) (i : Instr) : (s.perform i).tblValid = s.tblValid := rfl
@[simp] theorem State.perform_uop (s : State) (i : Instr) : (s.perform i).uop = s.uop := rfl
@[simp] theorem State.perform_host (s : State) (i : Instr) : (s.perform i).host = s.host := rfl
@[simp] theorem State.perform_responses (s : State) (i : Instr) :
    (s.perform i).responses = s.responses ++ answers s.tbl s.acc i := rfl
@[simp] theorem State.perform_lifetime (s : State) (i : Instr) : (s.perform i).lifetime = s.lifetime := rfl

/-- Micro-operations answer nothing (R43; log entry 19). -/
theorem answers_of_sequencer (t : TableSet) (a : Word) {i : Instr} (hi : i.issuer = .sequencer) :
    answers t a i = [] := by
  cases i with
  | build | fold1 _ | fold8 _ => rfl
  | _ => cases hi

/-- A command answers once (R46). -/
theorem answers_length_of_host (t : TableSet) (a : Word) {i : Instr} (hi : i.issuer = .host) :
    (answers t a i).length = 1 := by
  cases i with
  | build | fold1 _ | fold8 _ => cases hi
  | _ => rfl

/-- A micro-operation writes the accumulator at most. -/
theorem State.perform_of_sequencer (s : State) {i : Instr} (hi : i.issuer = .sequencer) :
    s.perform i = s.setAcc (nextAcc s.tbl s.acc i) := by
  rw [State.perform, answers_of_sequencer _ _ hi, List.append_nil, State.setAcc]

/-! ## Behind the gates -/

/-- Every operation but BUILD is `State.perform` behind the gate of publication (R39(b), R101). -/
theorem exec_eq_whenPublished {i : Instr} (hi : i ≠ .build) (s : State) :
    exec i s = whenPublished s fun s => s.perform i := by
  cases i with
  | build => exact absurd rfl hi
  | fold1 v =>
    exact congrArg (whenPublished s) (funext fun s => (s.perform_of_sequencer (i := .fold1 v) rfl).symm)
  | fold8 word =>
    exact congrArg (whenPublished s) (funext fun s => (s.perform_of_sequencer (i := .fold8 word) rfl).symm)
  | _ => rfl

variable {s t : State}

theorem exec_build_of_published (h : s.tblValid = true) : exec .build s = .next s := by
  rw [exec, execBuild, whenUnpublished_done h]

theorem exec_of_published (i : Instr) (h : s.tblValid = true) : exec i s = .next (s.perform i) := by
  by_cases hi : i = .build
  · subst hi
    rw [exec_build_of_published h, s.perform_of_sequencer rfl]
    rfl
  · rw [exec_eq_whenPublished hi, whenPublished_open h]

/-- Everything but BUILD is held before publication (R101, R110; log entry 7). -/
theorem exec_of_unpublished {i : Instr} (hi : i ≠ .build) (h : s.tblValid = false) : exec i s = .next s := by
  rw [exec_eq_whenPublished hi, whenPublished_held h]

/-! ## On any machine -/

/-- If an operation answers a next state, one of these three happened. -/
theorem exec_next {i : Instr} (h : exec i s = .next t) :
    (s.tblValid = true ∧ t = s.perform i) ∨ (s.tblValid = false ∧ i = .build ∧ t = s.publish tables) ∨
    (s.tblValid = false ∧ i ≠ .build ∧ t = s) := by
  cases hv : s.tblValid with
  | true =>
    rw [exec_of_published i hv] at h
    exact .inl ⟨rfl, (Host.Outcome.next.inj h).symm⟩
  | false =>
    by_cases hi : i = .build
    · subst hi
      rw [exec_build_of_unpublished hv] at h
      exact .inr (.inl ⟨rfl, rfl, (Host.Outcome.next.inj h).symm⟩)
    · rw [exec_of_unpublished hi hv] at h
      exact .inr (.inr ⟨rfl, hi, (Host.Outcome.next.inj h).symm⟩)

/-- No operation stops the machine (R95). -/
theorem exec_goes_on (i : Instr) (s : State) : ∃ t, exec i s = .next t := by
  cases hv : s.tblValid with
  | true => exact ⟨_, exec_of_published i hv⟩
  | false =>
    by_cases hi : i = .build
    · exact ⟨_, hi ▸ exec_build_of_unpublished hv⟩
    · exact ⟨_, exec_of_unpublished hi hv⟩

/-! ## What each operation leaves unchanged -/

section Frame

variable {i : Instr}

/-- The tables and `tbl_valid` are BUILD's (R15, R17). -/
theorem exec_keeps_tables (hi : i ≠ .build) (h : exec i s = .next t) : t.tbl = s.tbl ∧ t.tblValid = s.tblValid := by
  rcases exec_next h with ⟨-, rfl⟩ | ⟨-, hb, -⟩ | ⟨-, -, rfl⟩
  · exact ⟨rfl, rfl⟩
  · exact absurd hb hi
  · exact ⟨rfl, rfl⟩

/-- The accumulator is written by RESET, SEED, WRITE and the folds only (R13). -/
theorem exec_keeps_acc (hseed : ∀ v, i ≠ .seed v) (hwrite : ∀ d, i ≠ .write d) (hreset : i ≠ .reset)
    (hfold1 : ∀ v, i ≠ .fold1 v) (hfold8 : ∀ w, i ≠ .fold8 w) (h : exec i s = .next t) : t.acc = s.acc := by
  rcases exec_next h with ⟨-, rfl⟩ | ⟨-, -, rfl⟩ | ⟨-, -, rfl⟩
  · cases i with
    | reset => exact absurd rfl hreset
    | seed v => exact absurd rfl (hseed v)
    | write d => exact absurd rfl (hwrite d)
    | fold1 v => exact absurd rfl (hfold1 v)
    | fold8 w => exact absurd rfl (hfold8 w)
    | _ => rfl
  · rfl
  · rfl

/-- Responses are only added to (R46), and by commands only (R43). -/
theorem exec_adds_responses (h : exec i s = .next t) :
    ∃ rs, t.responses = s.responses ++ rs ∧ (i.issuer = .sequencer → rs = []) := by
  rcases exec_next h with ⟨-, rfl⟩ | ⟨-, -, rfl⟩ | ⟨-, -, rfl⟩
  · exact ⟨_, rfl, answers_of_sequencer s.tbl s.acc⟩
  · exact ⟨[], (List.append_nil _).symm, fun _ => rfl⟩
  · exact ⟨[], (List.append_nil _).symm, fun _ => rfl⟩

/-- No operation touches the waiting word, what the host has issued or the count of lifetimes. -/
theorem exec_frame (h : exec i s = .next t) : t.uop = s.uop ∧ t.host = s.host ∧ t.lifetime = s.lifetime := by
  rcases exec_next h with ⟨-, rfl⟩ | ⟨-, -, rfl⟩ | ⟨-, -, rfl⟩ <;> exact ⟨rfl, rfl, rfl⟩

end Frame

end Sys2Proof.Machine

namespace Sys2Proof.Certificates.Slice0

open Machine

/-- Settles O38: each gate answers a next state, open or not. -/
theorem noOperationRaises : Obligations.NoOperationRaises := exec_goes_on

/-- Settles O40, one clause for each piece of state. -/
theorem onlyTheNamedWriters : Obligations.OnlyTheNamedWriters := by
  intro i s t h
  obtain ⟨rs, hresponses, hsequencer⟩ := exec_adds_responses h
  refine ⟨fun hi => exec_keeps_tables hi h,
    fun hseed hwrite hreset hfold1 hfold8 => exec_keeps_acc hseed hwrite hreset hfold1 hfold8 h,
    fun hi => ?_, ⟨rs, hresponses⟩, exec_frame h⟩
  rw [hresponses, hsequencer hi, List.append_nil]

/-- Settles O18: the gate of BUILD is closed. -/
theorem secondBuildDoesNothing : Obligations.SecondBuildDoesNothing := fun _ h => exec_build_of_published h

/-- Settles O21: the gate of a fold is closed. -/
theorem foldsAreHeldUntilPublication : Obligations.FoldsAreHeldUntilPublication := fun _ h =>
  ⟨fun _ => exec_of_unpublished Instr.noConfusion h, fun _ => exec_of_unpublished Instr.noConfusion h⟩

/-- Settles O37: the gate of a command is closed, and BUILD is no command. -/
theorem commandsAreHeldUntilPublication : Obligations.CommandsAreHeldUntilPublication := by
  intro i s hi h
  refine exec_of_unpublished ?_ h
  rintro rfl
  cases hi

end Sys2Proof.Certificates.Slice0
end

section
/-! What one step does (60_exceptions.md R101; 70_reset_and_hazards.md R108, R113, R116, R117), one equation for each case of
`fetch`, and what every step keeps. -/

namespace Sys2Proof.Machine

variable {s t : State} {u : MicroWord} {hdr : Header} {payload : List Byte} {rest : List HostEvent}

/-! ## The cases of a step -/

theorem step_eq_build (h : s.tblValid = false) :
    step s = exec .build { s with uop := s.uop.filter fun u => !isBuildWord u } := by
  rw [step, fetch_unpublished h, nextUnpublished]

theorem step_of_micro {i : Instr} (h : s.tblValid = true) (hu : s.uop = some u) (hi : decodeMicro u = .ok i) :
    step s = exec i { s with uop := none } := by
  rw [step, fetch_micro h hu, nextMicro, hi]

theorem step_of_never {why : DecodeReject} (h : s.tblValid = true) (hu : s.uop = some u)
    (hw : decodeMicro u = .error why) : step s = .refused (.neverGenerated why) := by
  rw [step, fetch_micro h hu, nextMicro, hw]

theorem step_of_command (h : s.tblValid = true) (hu : s.uop = none) (hh : s.host = .command hdr payload :: rest) :
    step s = exec (decodeCommand hdr payload) { s with host := rest } := by
  rw [step, fetch_host h hu, nextHost, hh]

/-- The command taken is performed. -/
theorem step_performs_command (h : s.tblValid = true) (hu : s.uop = none)
    (hh : s.host = .command hdr payload :: rest) :
    step s = .next (State.perform { s with host := rest } (decodeCommand hdr payload)) :=
  (step_of_command h hu hh).trans (exec_of_published _ h)

theorem step_of_hardReset (h : s.tblValid = true) (hu : s.uop = none) (hh : s.host = .hardReset :: rest) :
    step s = .next (State.hardReset { s with host := rest }) := by
  rw [step, fetch_host h hu, nextHost, hh]

theorem step_of_idle (h : s.tblValid = true) (hu : s.uop = none) (hh : s.host = []) : step s = .next s := by
  rw [step, fetch_host h hu, nextHost, hh]

/-! ## The invariant -/

theorem buildWord_generated : ∃ i, decodeMicro buildWord = .ok i :=
  ⟨.build, decodeMicro_of_uop_zero (microUop_mkMicro 0#2 0#64)⟩

theorem microGenerated_of_none (h : s.uop = none) : Safety.MicroGenerated s := by
  intro u hu
  rw [h] at hu
  cases hu

/-- The word of BUILD, which reset generates, is one that a sequencer can generate (R49). -/
theorem microGenerated_of_buildWord (h : s.uop = some buildWord) : Safety.MicroGenerated s := by
  intro u hu
  obtain rfl : buildWord = u := Option.some.inj (h.symm.trans hu)
  exact buildWord_generated

/-- A machine on which BUILD is due meets the invariant: nothing is published. -/
theorem inv_of_buildWord (hv : s.tblValid = false) (hu : s.uop = some buildWord) : Safety.Inv s where
  tables := fun h => Bool.noConfusion (hv.symm.trans h)
  micro := microGenerated_of_buildWord hu

/-- An operation keeps the invariant: the only tables it may write are `TABLES`, and it leaves the waiting word alone. -/
theorem exec_keeps_inv {i : Instr} (h : exec i s = .next t) (hs : Safety.Inv s) : Safety.Inv t := by
  obtain ⟨htables, hmicro⟩ := hs
  rcases exec_next h with ⟨-, rfl⟩ | ⟨-, -, rfl⟩ | ⟨-, -, rfl⟩
  · exact ⟨htables, hmicro⟩
  · exact ⟨fun _ => rfl, hmicro⟩
  · exact ⟨htables, hmicro⟩

/-- BUILD's word, waiting, is used up; any other waiting word stays (R110). -/
theorem filter_buildWord : (some buildWord).filter (fun u => !isBuildWord u) = none := by decide

theorem step_keeps_inv (hs : Safety.Inv s) (h : step s = .next t) : Safety.Inv t := by
  obtain ⟨htables, hmicro⟩ := hs
  rcases step_next h with
    ⟨-, hexec⟩ | ⟨-, u, i, -, -, hexec⟩ | ⟨-, -, hdr, payload, rest, -, hexec⟩ | ⟨-, -, rest, -, rfl⟩ | ⟨-, -, -, rfl⟩
  · exact exec_keeps_inv hexec ⟨htables, fun u hu => hmicro u (Option.filter_eq_some_iff.mp hu).1⟩
  · exact exec_keeps_inv hexec ⟨htables, microGenerated_of_none rfl⟩
  · exact exec_keeps_inv hexec ⟨htables, hmicro⟩
  · exact inv_of_buildWord rfl rfl
  · exact ⟨htables, hmicro⟩

/-- The only case without a next state is a word that no sequencer generates, which the invariant excludes. -/
theorem step_goes_on (hs : Safety.Inv s) : ∃ t, step s = .next t := by
  cases hv : s.tblValid with
  | false => exact ⟨_, step_of_unpublished hv⟩
  | true =>
    cases hu : s.uop with
    | some u =>
      obtain ⟨i, hi⟩ := hs.micro u hu
      rw [step_of_micro hv hu hi]
      exact exec_goes_on i _
    | none =>
      match hh : s.host with
      | .command hdr payload :: rest =>
        rw [step_of_command hv hu hh]
        exact exec_goes_on _ _
      | .hardReset :: rest => exact ⟨_, step_of_hardReset hv hu hh⟩
      | [] => exact ⟨_, step_of_idle hv hu hh⟩

/-! ## One BUILD in a lifetime -/

theorem step_keeps_oneBuild (hs : Safety.OneBuild s) (h : step s = .next t) : Safety.OneBuild t := by
  rcases hs with ⟨hv, hu⟩ | ⟨hv, hu⟩
  · rw [step_of_unpublished hv, hu, filter_buildWord] at h
    obtain rfl := Host.Outcome.next.inj h
    exact .inr ⟨rfl, rfl⟩
  · rcases step_next h with
      ⟨hv', -⟩ | ⟨-, u, i, hu', -, -⟩ | ⟨-, -, hdr, payload, rest, -, hexec⟩ | ⟨-, -, rest, -, rfl⟩ | ⟨-, -, -, rfl⟩
    · cases hv.symm.trans hv'
    · cases hu.symm.trans hu'
    · rw [exec_of_published _ (by exact hv)] at hexec
      obtain rfl := Host.Outcome.next.inj hexec
      exact .inr ⟨hv, hu⟩
    · exact .inl ⟨rfl, rfl⟩
    · exact .inr ⟨hv, hu⟩

/-- The step of a machine on which BUILD is due, and no FOLD waits, leaves the tables built and nothing waiting (R101,
R116). -/
theorem step_builds (h : s.tblValid = false) (hu : s.uop = none ∨ s.uop = some buildWord) :
    step s = .next { s with tblValid := true, tbl := tables, uop := none } := by
  have hused : s.uop.filter (fun u => !isBuildWord u) = none := by
    rcases hu with hu | hu
    · rw [hu]
      rfl
    · rw [hu, filter_buildWord]
  rw [step_of_unpublished h, hused, State.publish]

end Sys2Proof.Machine

namespace Sys2Proof.Certificates.Slice0

open Machine

/-- Settles O45: whatever a step runs keeps the invariant, and a hardware reset leaves only BUILD's word waiting. -/
theorem stepKeepsInvariant : Obligations.StepKeepsInvariant := fun _ _ => step_keeps_inv

/-- Settles O47: BUILD leads from the first case to the second, a hardware reset back, and a command keeps the second. -/
theorem stepKeepsOneBuild : Obligations.StepKeepsOneBuild := fun _ _ => step_keeps_oneBuild

/-- Settles O39: a step's operation always goes on, and a waiting word decodes. -/
theorem stepAlwaysGoesOn : Obligations.StepAlwaysGoesOn := fun _ => step_goes_on

/-- Settles O44: BUILD uses up its own word, and the open gate then lets the command through. -/
theorem heldCommandIsAcceptedAfterBuild : Obligations.HeldCommandIsAcceptedAfterBuild := by
  intro s hdr payload rest h hu hh
  refine ⟨_, step_builds h hu, rfl, step_of_command rfl rfl hh, _, step_performs_command rfl rfl hh, ?_⟩
  rw [State.perform_responses, List.length_append, answers_length_of_host _ _ (decodeCommand_issuer hdr payload)]

/-- Settles O50: the step after the reset is BUILD, which keeps `acc`. -/
theorem hardwareResetReachesLaunchState : Obligations.HardwareResetReachesLaunchState := fun _ _ h hu hh =>
  ⟨_, _, step_of_hardReset h hu hh, rfl, rfl, rfl, step_builds rfl (.inr rfl), ⟨rfl, rfl, rfl⟩, rfl, rfl, rfl⟩

/-- Settles O1: the unpublished case of `fetch`. -/
theorem stepBuildsFirst : Obligations.StepBuildsFirst := fun _ => step_eq_build

/-- Settles O2: the waiting word's case of `fetch`, by what the word decodes to. -/
theorem stepRunsWaitingMicro : Obligations.StepRunsWaitingMicro := fun _ _ h hu =>
  ⟨fun _ => step_of_micro h hu, fun _ => step_of_never h hu⟩

/-- Settles O3: the host's case of `fetch`, with a command next. -/
theorem stepRunsIssuedCommand : Obligations.StepRunsIssuedCommand := fun _ _ _ _ => step_of_command

/-- Settles O4: the host's case of `fetch`, with nothing issued. -/
theorem stepIdlesAtTheEnd : Obligations.StepIdlesAtTheEnd := fun _ => step_of_idle

/-- Settles O46: nothing is published at reset, and BUILD's word waits. -/
theorem resetMeetsInvariant : Obligations.ResetMeetsInvariant := inv_of_buildWord rfl rfl

/-- Settles O48: the first case, by the reset values. -/
theorem resetOwesOneBuild : Obligations.ResetOwesOneBuild := .inl ⟨rfl, rfl⟩

end Sys2Proof.Certificates.Slice0
end

section
/-! Sequences of operations on a published machine (10_state.md R13; 20_memory.md R39; 70_reset_and_hazards.md R113, R117).
The final accumulator and the responses are functions of the tables, the accumulator and the operations. -/

namespace Sys2Proof.Machine

/-- What the operations `is` answer, one after another, from an accumulator that holds `a`. -/
def allAnswers (t : TableSet) : Word → List Instr → List Response
  | _, [] => []
  | a, i :: is => answers t a i ++ allAnswers t (nextAcc t a i) is

/-- The published machine `s` after the operations `is`. -/
def State.performAll (s : State) (is : List Instr) : State :=
  { s with acc := is.foldl (nextAcc s.tbl) s.acc, responses := s.responses ++ allAnswers s.tbl s.acc is }

theorem State.performAll_nil (s : State) : s.performAll [] = s := by
  rw [State.performAll, allAnswers, List.append_nil, List.foldl_nil]

theorem State.performAll_cons (s : State) (i : Instr) (is : List Instr) :
    s.performAll (i :: is) = (s.perform i).performAll is := by
  rw [State.performAll, allAnswers, ← List.append_assoc]
  rfl

theorem execAll_of_published (is : List Instr) {s : State} (h : s.tblValid = true) :
    Safety.execAll is s = .next (s.performAll is) := by
  induction is generalizing s with
  | nil => rw [s.performAll_nil, Safety.execAll]
  | cons i is ih => rw [Safety.execAll_cons is (exec_of_published i h), ih (by exact h), s.performAll_cons]

/-- The commands that only read (R36, R113): they leave the accumulator and answer once. -/
theorem reader_spec {i : Instr} (t : TableSet) (a : Word)
    (hi : i = .sum64 ∨ (∃ pre, i = .sum pre) ∨ i = .blockSize ∨ i = .size ∨ ∃ value data, i = .checksum value data) :
    nextAcc t a i = a ∧ ∃ r, answers t a i = [r] := by
  rcases hi with rfl | ⟨pre, rfl⟩ | rfl | rfl | ⟨value, data, rfl⟩ <;> exact ⟨rfl, _, rfl⟩

/-- Commands answer once each (R46, R117). -/
theorem allAnswers_length_of_host (t : TableSet) (a : Word) {is : List Instr} (his : ∀ i ∈ is, i.issuer = .host) :
    (allAnswers t a is).length = is.length := by
  induction is generalizing a with
  | nil => rfl
  | cons i is ih =>
    obtain ⟨hi, his⟩ := List.forall_mem_cons.mp his
    rw [allAnswers, List.length_append, answers_length_of_host t a hi, ih _ his, List.length_cons, Nat.add_comm]

/-! ## Runs -/

/-- A run goes on from the state that its first step leaves. -/
theorem run_succ_of_step {M : Host.Core} {s t : M.State} (n : Nat) (h : M.step s = .next t) :
    M.run (n + 1) s = M.run n t := by
  rw [Host.Core.run, h]

/-- As many steps as commands are issued perform them all (R39, R117). -/
theorem run_performs_commands (cmds : List (Header × List Byte)) {s : State} (h : s.tblValid = true) (hu : s.uop = none)
    (hh : s.host = cmds.map fun c => .command c.1 c.2) :
    core.run cmds.length s =
      .next (State.performAll { s with host := [] } (cmds.map fun c => decodeCommand c.1 c.2)) := by
  induction cmds generalizing s with
  | nil =>
    have hsame : { s with host := [] } = s := by rw [← show s.host = [] from hh]
    rw [List.map_nil, State.performAll_nil, hsame]
    rfl
  | cons c cmds ih =>
    have hrest := ih (s := State.perform { s with host := cmds.map fun c => .command c.1 c.2 } (decodeCommand c.1 c.2))
      h hu rfl
    have hstep : core.step s = _ := step_performs_command h hu hh
    rw [List.length_cons, run_succ_of_step cmds.length hstep, List.map_cons, State.performAll_cons]
    exact hrest

end Sys2Proof.Machine

namespace Sys2Proof.Certificates.Slice0

open Machine

/-- Settles O42: the final accumulator and the responses do not depend on the rest of the state. -/
theorem accumulatorIsAllTheHistory : Obligations.AccumulatorIsAllTheHistory := by
  intro is s s' h h' hacc htbl
  refine ⟨_, _, allAnswers s.tbl s.acc is, execAll_of_published is h, execAll_of_published is h', rfl, ?_, ?_, htbl, h, h'⟩
  · rw [State.performAll, hacc, htbl]
  · rw [State.performAll, State.performAll, hacc, htbl]

/-- Settles O43: the operations behind the reading command start from the same accumulator. -/
theorem readsHaveNoSideEffect : Obligations.ReadsHaveNoSideEffect := by
  intro i is s h hi
  obtain ⟨hacc, r, hr⟩ := reader_spec s.tbl s.acc hi
  refine ⟨r, _, _, allAnswers s.tbl s.acc is, execAll_of_published (i :: is) h, execAll_of_published is h, ?_, rfl, ?_,
    rfl, rfl⟩
  · rw [State.performAll, allAnswers, hr, hacc, List.singleton_append]
  · rw [State.performAll, List.foldl_cons, hacc, State.performAll]

/-- Settles O51: the run and the sequence of decoded commands both end in `State.performAll`. -/
theorem runPerformsCommandsInOrder : Obligations.RunPerformsCommandsInOrder := by
  intro s cmds ⟨h, htbl, hu⟩ hh
  refine ⟨_, run_performs_commands cmds h hu hh, execAll_of_published _ h, rfl, ⟨h, htbl, hu⟩, ?_⟩
  have hhost : ∀ i ∈ cmds.map fun c => decodeCommand c.1 c.2, i.issuer = .host :=
    List.forall_mem_map.mpr fun c _ => decodeCommand_issuer c.1 c.2
  rw [State.performAll, List.length_append, allAnswers_length_of_host _ _ hhost, List.length_map]

/-- Settles O36: SUM64 answers the accumulator, which holds the fold of `data` into the seed. -/
theorem checksumEqualsSeedWriteSum : Obligations.ChecksumEqualsSeedWriteSum := fun value data s h =>
  ⟨_, update s.tbl value data, execAll_of_published _ h, rfl, exec_checksum_of_published value data h⟩

end Sys2Proof.Certificates.Slice0
end

section
/-! The LUT space and the table generator (20_memory.md R31; 40_table_generation.md R60 to R67). The right-shifting register
of R63 is the reversed register of R62, XORed with the bits of the byte that it has not used yet. -/

namespace Sys2Proof.Machine

/-! ## The right-shifting algorithm -/

/-- The reversal of a left shift is the right shift of the reversal. -/
theorem rev64_shiftLeft_one (v : Word) : rev64 (v <<< 1) = rev64 v >>> 1 := by
  apply BitVec.eq_of_getLsbD_eq
  intro i hi
  rw [getLsbD_rev64 _ hi, BitVec.getLsbD_ushiftRight, BitVec.getLsbD_shiftLeft]
  by_cases hlast : i = 63
  · subst hlast
    rw [BitVec.getLsbD_of_ge (rev64 v) (1 + 63) (by decide)]
    rfl
  · have hnext : 1 + i < 64 := by omega
    have hpos : 63 - i - 1 = 63 - (1 + i) := by omega
    have hin : 63 - i < 64 := by omega
    have hlow : ¬ 63 - i < 1 := by omega
    rw [getLsbD_rev64 v hnext, hpos, decide_eq_true hin, decide_eq_false hlow, Bool.not_false, Bool.true_and,
      Bool.true_and]

/-- A right-shifting step on the reversed register, with bits `w` still to come, takes the lowest of them (R63). -/
theorem reflectedStep_rev64_xor (v w : Word) :
    reflectedStep (rev64 v ^^^ w) = rev64 (crcBitStep v (w.getLsbD 0)) ^^^ w >>> 1 := by
  have hbit : (rev64 v ^^^ w).getLsbD 0 = (v.getLsbD 63 ^^ w.getLsbD 0) := by
    have htop : (rev64 v).getLsbD 0 = v.getLsbD 63 := getLsbD_rev64 v (Nat.zero_lt_succ 63)
    rw [BitVec.getLsbD_xor, htop]
  have hshift : (rev64 v ^^^ w) >>> 1 = rev64 (v <<< 1) ^^^ w >>> 1 := by
    rw [BitVec.ushiftRight_xor_distrib, rev64_shiftLeft_one]
  rw [reflectedStep, crcBitStep, hbit, hshift]
  cases v.getLsbD 63 ^^ w.getLsbD 0 with
  | false => rfl
  | true =>
    rw [if_pos rfl, if_pos rfl, rev64_xor, BitVec.xor_assoc, BitVec.xor_comm (w >>> 1), BitVec.xor_assoc]

/-- After `k` steps the two registers agree up to the reversal and the bits not used yet. -/
theorem foldl_reflectedStep (c : Byte) (k : Nat) (hk : k ≤ 8) :
    (List.range k).foldl (fun v _ => reflectedStep v) (c.setWidth 64) =
      rev64 ((List.range k).foldl (fun v i => crcBitStep v (c.getLsbD i)) 0#64) ^^^ c.setWidth 64 >>> k := by
  induction k with
  | zero =>
    have hzero : rev64 0#64 = 0#64 := by decide +kernel
    rw [List.range_zero, List.foldl_nil, List.foldl_nil, hzero, BitVec.zero_xor, BitVec.ushiftRight_zero]
  | succ k ih =>
    have hk' : k < 64 := by omega
    have hbit : (c.setWidth 64 >>> k).getLsbD 0 = c.getLsbD k := by simp [hk']
    rw [List.range_succ, List.foldl_append, List.foldl_append, ih (by omega), List.foldl_cons, List.foldl_nil,
      reflectedStep_rev64_xor, hbit, ← BitVec.shiftRight_add, List.foldl_cons, List.foldl_nil]

theorem t0EntryReflected_eq (c : Byte) : t0EntryReflected c = t0Entry c := by
  have hused : c.setWidth 64 >>> 8 = 0#64 := by
    ext i hi
    simp
  have hsteps := foldl_reflectedStep c 8 le_rfl
  rw [hused, BitVec.xor_zero] at hsteps
  exact hsteps

/-! ## BUILD -/

/-- With the tables published and nothing waiting, the next operation, if there is one, is a command of the host (R49). -/
theorem fetch_issuer_host {s t : State} {i : Instr} (h : s.tblValid = true) (hu : s.uop = none) (hrun : fetch s = .run i t) :
    i.issuer = .host := by
  rw [fetch_host h hu, nextHost] at hrun
  split at hrun
  · obtain ⟨rfl, -⟩ := Next.run.inj hrun
    exact decodeCommand_issuer _ _
  · cases hrun
  · cases hrun

end Sys2Proof.Machine

namespace Sys2Proof.Certificates.Slice0

open Machine

/-- Settles O11: the read-after-write laws of Laws/Lut.lean. -/
theorem lutReadsWhatWasWritten : Obligations.LutReadsWhatWasWritten := by
  refine ⟨lutAddr_toNat, fun k b k' b' => BitVec.toNat_inj.symm.trans lutAddr_inj, fun t k b v k' b' => ?_⟩
  split
  case isTrue hsame =>
    obtain ⟨rfl, rfl⟩ := hsame
    exact lutRead_lutWrite_self t k b v
  case isFalse hother => exact lutRead_lutWrite_other t v hother

/-- Settles O16: the registers of the two algorithms agree after eight steps, up to the reversal. -/
theorem reflectedAlgorithmGivesTableZero : Obligations.ReflectedAlgorithmGivesTableZero :=
  ⟨by decide +kernel, fun c => (t0EntryReflected_eq c).trans (lutRead_tables_zero c).symm⟩

/-- Settles O17: BUILD stores `TABLES`, which is what the write loops leave; BUILD is no command, so no step performs it
later. -/
theorem buildWritesTablesAndPublishes : Obligations.BuildWritesTablesAndPublishes := by
  refine ⟨fun s h => ⟨?_, exec_build_of_unpublished h, fun t ht => ?_⟩,
    fun opnd => decodeMicro_of_uop_zero (microUop_mkMicro 0#2 opnd), fun s => ⟨rfl, rfl⟩, fun s t i h hu hrun => ?_, ?_, ?_⟩
  · rw [buildWrites_eq]
    exact exec_build_of_unpublished h
  · rw [exec_build_of_unpublished h] at ht
    obtain rfl := Host.Outcome.next.inj ht
    exact ⟨lutRead_tables_zero, fun k b hk => lutRead_tables_succ b hk⟩
  · rintro rfl
    cases fetch_issuer_host h hu hrun
  · rw [lutRead_tables_zero]
    decide +kernel
  · rw [lutRead_tables]
    decide +kernel

end Sys2Proof.Certificates.Slice0
end
